-- ==== Sys2Proof/Word.lean ====
section
/-! DEFINITION. The two widths of the block: a stream byte and a 32-bit parallel word
(20_memory.md R54, 00_scope.md R6). -/

namespace Sys2Proof

/-- One stream byte (10_state.md R23, 30_encoding.md R76). -/
abbrev Byte := BitVec 8

/-- A command word, response datum, register value or FrameRange field (20_memory.md R54). -/
abbrev Word := BitVec 32

end Sys2Proof
end

