-- ==== Sys2Proof/Syntax.lean ====
section
/-! DEFINITION. The instruction set: one constructor per row of spec/opcode_table.json, five host commands, ILLEGAL and
seven internal micro-operations (00_scope.md R3). -/

namespace Sys2Proof

/-- The rows of spec/opcode_table.json. -/
inductive Instr where
  /-- START (42_driver_commands.md R141), format N. -/
  | start
  /-- STOP (R143), format N. -/
  | stop
  /-- PUSH(N) (R144, R145), format P; the payload is on the data-in port (30_encoding.md R76). -/
  | push (n : BitVec 16)
  /-- ACK(mask) (R158), format A. -/
  | ack (mask : BitVec 8)
  /-- RDREG(idx) (R159), format R. -/
  | rdreg (idx : BitVec 4)
  /-- ILLEGAL(w) (R160): every word no row of 30_encoding.md R73 matches. -/
  | illegal (w : Word)
  /-- APPEND(d) (40_buffer_manager.md R100), internal. -/
  | append (d : List Byte)
  /-- EVICT(off) (R102), internal. -/
  | evict (off : Nat)
  /-- RESET() (R104), internal: the buffer's reset, not the hardware reset of 70_reset_and_hazards.md R200. -/
  | reset
  /-- FIND_MARKER(from) (41_synchronizer.md R120), internal. -/
  | findMarker (origin : Nat)
  /-- COMPUTE_RANGE() (R122), internal. -/
  | computeRange
  /-- VALIDATE(start, end) (R128), internal; the operands are the integers of a FrameRange. -/
  | validate (first last : Int)
  /-- DISPATCH(e) (42_driver_commands.md R148), internal. -/
  | dispatch (e : Nat)
  deriving DecidableEq, Repr

end Sys2Proof
end

