-- ==== Sys2Proof/WellFormed.lean ====
section
/-! DEFINITION. Which terms of `Instr` are instructions: operand ranges the types do not already fix. -/

namespace Sys2Proof

/-- The legal rows of 30_encoding.md R73 as (match, mask): a word `w` belongs to a row when `w & mask = match`. -/
def legalRows : List (Word × Word) :=
  [ (0x10000000, 0xFFFFFFFF), (0x20000000, 0xFFFFFFFF), (0x30000000, 0xFFFF0000),
    (0x40000000, 0xFFFFFF00), (0x50000000, 0xFFFFFFF0) ]

/-- Some row of 30_encoding.md R73 matches the word. -/
def matchesLegalRow (w : Word) : Bool := legalRows.any fun r => w &&& r.2 == r.1

/-- A FrameRange field fits 32-bit two's complement (30_encoding.md R81). -/
def fitsRangeField (x : Int) : Bool := decide (-2 ^ 31 ≤ x) && decide (x < 2 ^ 31)

/-- The operand checks.  PUSH, ACK and RDREG operands are exactly as wide as their fields (30_encoding.md R72), and an
RDREG of index 6 to 15 is a legal word (R74).  APPEND's operand is the rest of a PUSH payload, at most 65535 bytes (R72);
offsets stay below `2^31` (00_scope.md R7); a dispatched `dec_end` is at least 1 (R79). -/
def wellFormed : Instr → Bool
  | .start => true
  | .stop => true
  | .push _ => true
  | .ack _ => true
  | .rdreg _ => true
  | .illegal w => !matchesLegalRow w
  | .append d => decide (d.length ≤ 65535)
  | .evict off => decide (off < 2 ^ 31)
  | .reset => true
  | .findMarker origin => decide (origin < 2 ^ 31)
  | .computeRange => true
  | .validate first last => fitsRangeField first && fitsRangeField last
  | .dispatch e => decide (1 ≤ e) && decide (e < 2 ^ 31)

end Sys2Proof
end

