-- ==== Sys2Proof/Decode.lean ====
section
/-! DEFINITION. Command decoding and encoding (30_encoding.md R71 to R75, R84).  A command is one 32-bit parallel word, never
split into bytes (20_memory.md R54), so decoding is a function of the word. -/

namespace Sys2Proof

/-- `op = w[31:28]` (30_encoding.md R71). -/
def opcodeField (w : Word) : BitVec 4 := w.extractLsb' 28 4

/-- The decode procedure of 30_encoding.md R84, total on all `2^32` words; a word it rejects is ILLEGAL(w) by name. -/
def decode (w : Word) : Instr :=
  if opcodeField w = 1 then
    if w.extractLsb' 0 28 = 0 then .start else .illegal w
  else if opcodeField w = 2 then
    if w.extractLsb' 0 28 = 0 then .stop else .illegal w
  else if opcodeField w = 3 then
    if w.extractLsb' 16 12 = 0 then .push (w.extractLsb' 0 16) else .illegal w
  else if opcodeField w = 4 then
    if w.extractLsb' 8 20 = 0 then .ack (w.extractLsb' 0 8) else .illegal w
  else if opcodeField w = 5 then
    if w.extractLsb' 4 24 = 0 then .rdreg (w.extractLsb' 0 4) else .illegal w
  else .illegal w

/-- The command word of an instruction, from the opcode map of 30_encoding.md R73; an internal micro-operation has
none (R85). -/
def encode : Instr → Option Word
  | .start => some 0x10000000
  | .stop => some 0x20000000
  | .push n => some (0x30000000 ||| n.setWidth 32)
  | .ack mask => some (0x40000000 ||| mask.setWidth 32)
  | .rdreg idx => some (0x50000000 ||| idx.setWidth 32)
  | .illegal w => some w
  | .append _ => none
  | .evict _ => none
  | .reset => none
  | .findMarker _ => none
  | .computeRange => none
  | .validate _ _ => none
  | .dispatch _ => none

/-- The word a command reports as the info of its CMDERR record (30_encoding.md R80). -/
def commandWord (i : Instr) : Word := (encode i).getD 0

/-- The host can issue it: it has a command word (30_encoding.md R85). -/
def isHostCommand : Instr → Bool
  | .start => true
  | .stop => true
  | .push _ => true
  | .ack _ => true
  | .rdreg _ => true
  | .illegal _ => true
  | .append _ => false
  | .evict _ => false
  | .reset => false
  | .findMarker _ => false
  | .computeRange => false
  | .validate _ _ => false
  | .dispatch _ => false

/-- What the decoder reads from a table row's word.  Every command is one 32-bit word (30_encoding.md R71); a row without
an encoding (`nbits = 0`) and a number of more than 32 bits are no command word. -/
def decodeTableWord (nbits w : Nat) : Option Instr :=
  if nbits = 0 ∨ 2 ^ 32 ≤ w then none else some (decode (BitVec.ofNat 32 w))

end Sys2Proof
end

