-- ==== Sys2Proof/Config.lean ====
section
/-! DEFINITION. What is fixed at construction (00_scope.md R6) and the values the spec leaves free. -/

namespace Sys2Proof

/-- The construction parameters of 00_scope.md R6.  They are inputs of the block, not state; the model carries
them in `Machine.State` because a step is a function of the state alone, and no step changes them (log entry 1). -/
structure Config where
  /-- `C`, the working-buffer capacity in bytes (`cfg_capacity`, R8). -/
  capacity : Nat
  /-- `L`, the marker length in bytes (`cfg_mlen`, R9). -/
  markerLength : Nat
  /-- `M`, the marker pattern, `M[0]` first on the wire (`cfg_marker`, 20_memory.md R53). -/
  marker : List Byte
  /-- `OUTCHUNK`, passed to the decoder unchanged and not interpreted (`cfg_outchunk`). -/
  outChunk : Nat
  deriving DecidableEq, Repr

/-- DESIGN CHOICE (log entry 2): the configuration of `State.reset`, CFG-B of 95_test_vectors.md
(`C = 8`, `L = 2`, `M = AB CD`).  The spec names no default; no statement rests on this one. -/
def Config.cfgB : Config :=
  { capacity := 8, markerLength := 2, marker := [0xAB, 0xCD], outChunk := 0 }

/-- Free value (log entry 5): the payload byte the host presents where the environment's script lists none
(30_encoding.md R76 has the host present all `N` bytes and says nothing of their values). -/
opaque Config.freePayloadByte : Nat → Byte

/-- Free value (log entry 6): what a decoder read returns at or above `dec_end`, or while no request is outstanding:
"returns an unspecified byte" (70_reset_and_hazards.md R206). -/
opaque Config.freeDecoderByte : Nat → Byte

end Sys2Proof
end

