-- ==== Sys2Proof/Machine/State.lean ====
section
/-! DEFINITION. Everything the spec gives the block, as plain data: the tuple `(life, buf, occ, frames, events, seq)` of
10_state.md, the transients of R28 to R30 while they exist, the ports of 30_encoding.md R70, and the environment the ports
face (00_scope.md R11). -/

namespace Sys2Proof.Machine

/-- `life` (10_state.md R22). -/
inductive Life where
  | idle
  | active
  | stopped
  deriving DecidableEq, Repr

/-- The sequencer flag `seq` (10_state.md R21). -/
inductive Seq where
  | ready
  | busy
  deriving DecidableEq, Repr

/-- `rsp_status` (30_encoding.md R78). -/
inductive Status where
  | ok
  | cmdErr
  | initErr
  | fatal
  deriving DecidableEq, Repr

/-- The events of 60_exceptions.md R180. -/
inductive Event where
  | garb
  | oversize
  | derr
  | dfatal
  | initerr
  | cmderr
  | noprog
  deriving DecidableEq, Repr

/-- The decoder result `r` of 42_driver_commands.md R148. -/
inductive DecoderResult where
  | ok
  | recoverable
  | fatal
  deriving DecidableEq, Repr

/-- The classification of a candidate (41_synchronizer.md R122). -/
inductive Classification where
  | nosync
  | incomplete
  | valid
  deriving DecidableEq, Repr

/-- A FrameRange: integers, `-1` for "not yet found" (10_state.md R28, 00_scope.md R14). -/
structure FrameRange where
  first : Int
  last : Int
  deriving DecidableEq, Repr

/-- The result `(cls, (start, end), ev)` of COMPUTE_RANGE (41_synchronizer.md R122). -/
structure RangeResult where
  cls : Classification
  range : FrameRange
  ev : Bool
  deriving DecidableEq, Repr

/-- One transfer on the response port (30_encoding.md R77). -/
structure Response where
  status : Status
  data : Word
  deriving DecidableEq, Repr

/-- One record on the event port (30_encoding.md R80). -/
structure EventRecord where
  event : Event
  info : Word
  deriving DecidableEq, Repr

/-- One transfer on the decoder request port (30_encoding.md R79), with the copy of the frame the decoder may read
(20_memory.md R61). -/
structure DecoderRequest where
  decStart : Word
  decEnd : Word
  frame : List Byte
  deriving DecidableEq, Repr

/-- A command as the host presents it: the word on the command port and the payload it holds for the data-in port
(30_encoding.md R76). -/
structure HostCommand where
  word : Word
  payload : List Byte
  deriving DecidableEq, Repr

/-- The loop variables of a PUSH (10_state.md R29). -/
structure PushLoop where
  k : Nat
  nop : Nat
  prog : Bool
  deriving DecidableEq, Repr

/-- The result an internal micro-operation returns to the sequencer; EVICT and RESET return none. -/
inductive MicroResult where
  /-- APPEND's `n` (40_buffer_manager.md R100). -/
  | count (n : Nat)
  /-- FIND_MARKER's offset or none (41_synchronizer.md R120). -/
  | marker (offset : Option Nat)
  /-- COMPUTE_RANGE's triple (R122). -/
  | range (r : RangeResult)
  /-- VALIDATE's boolean (R128). -/
  | valid (b : Bool)
  /-- DISPATCH's `r` (42_driver_commands.md R148). -/
  | decoded (r : DecoderResult)
  deriving DecidableEq, Repr

/-- One act of the block's environment, the host, the decoder or the platform (00_scope.md R11). -/
inductive Input where
  /-- The host presents a command (30_encoding.md R70, 70_reset_and_hazards.md R204). -/
  | command (c : HostCommand)
  /-- The decoder answers the outstanding request with `dec_rsp_code` (30_encoding.md R79). -/
  | decoderResponse (code : BitVec 2)
  /-- The decoder answers a request that a hardware reset has withdrawn (70_reset_and_hazards.md R200). -/
  | lateDecoderResponse (code : BitVec 2)
  /-- The decoder reads `dec_rd_addr` (30_encoding.md R70, 20_memory.md R61). -/
  | decoderRead (addr : Word)
  /-- The platform drives `alloc_ok` (30_encoding.md R70). -/
  | allocOk (level : Bool)
  /-- `rst` is asserted (70_reset_and_hazards.md R200). -/
  | hardwareReset
  deriving DecidableEq, Repr

/-- The contents of the working buffer: offset and byte, offsets strictly rising.  An offset that is not listed holds no
value: the bytes `[occ, C)` are unspecified and "a model may hold them as any value, or as no value" (20_memory.md R51). -/
abbrev Memory := List Host.Cell

/-- Ways a step stops that no rule of the spec reaches. -/
inductive Fault where
  /-- MemRead outside `[0, occ)` (20_memory.md R65, 92 D40): DISPATCH of more bytes than are occupied.  Safe. -/
  | readOutOfBounds (offset count : Nat)
  /-- MemRead of an occupied offset that holds no value: not in any state that meets `Inv`.  Safe. -/
  | readUnspecified (offset count : Nat)
  /-- MemWrite outside `[0, C)` (20_memory.md R65, 92 D40): APPEND in a state with `occ > C`, which no run reaches.  Safe. -/
  | writeOutOfBounds (offset count : Nat)
  /-- EVICT(off) with `off > occ` (40_buffer_manager.md R102, R103, 92 D40).  Safe. -/
  | evictBeyondOccupied (offset occupied : Nat)
  /-- PUSH made more outer passes than 42_driver_commands.md R157 allows: not under any legal configuration.  Safe. -/
  | passBoundExceeded
  deriving DecidableEq, Repr

/-- Ways a step is refused. -/
inductive Refusal where
  /-- An instruction that has no meaning yet; no arm of `exec` answers so.  Safe. -/
  | notModelled (mnemonic : String)
  /-- A configuration outside 00_scope.md R7: "A model refuses any other configuration at construction".  Safe. -/
  | illegalConfiguration
  deriving DecidableEq, Repr

/-- The whole state. -/
structure State where
  /-- The construction parameters (00_scope.md R6): constant. -/
  cfg : Config
  /-- `life` (10_state.md R22). -/
  life : Life
  /-- `buf` (10_state.md R23). -/
  buf : Memory
  /-- `occ`, a natural `0 .. C` (10_state.md R24). -/
  occ : Nat
  /-- `frames`, saturating (10_state.md R27). -/
  frames : BitVec 32
  /-- `events`, sticky (10_state.md R40). -/
  events : BitVec 8
  /-- `seq` (10_state.md R21). -/
  seq : Seq
  /-- The loop variables of the PUSH that waits for the decoder (10_state.md R29). -/
  push : Option PushLoop
  /-- The outstanding decoder request's frame length `e` (10_state.md R30). -/
  decReq : Option Nat
  /-- The data-in port: the bytes of the running command's payload not yet taken, next first (30_encoding.md R76). -/
  din : List Byte
  /-- The command port: commands presented and not yet accepted, oldest first (20_memory.md R60). -/
  cmdPort : List HostCommand
  /-- The response port's transfers since hardware reset, oldest first (30_encoding.md R77). -/
  responses : List Response
  /-- The event port's records since hardware reset, oldest first (30_encoding.md R80). -/
  eventPort : List EventRecord
  /-- The decoder request port's transfers since hardware reset, oldest first (30_encoding.md R79). -/
  requests : List DecoderRequest
  /-- The decoder read port's `dec_rd_data` since hardware reset, oldest first (30_encoding.md R70). -/
  decReads : List Byte
  /-- The level of `alloc_ok`, the draw of START (42_driver_commands.md R141). -/
  allocOk : Bool
  /-- The model's own: what the environment does next, in order (log entry 3). -/
  inputs : List Input
  /-- The model's own: the result of a micro-operation run by itself (log entry 7). -/
  micro : Option MicroResult
  /-- The model's own: how many free values have been drawn (log entries 5 and 6). -/
  draws : Nat
  deriving DecidableEq, Repr

/-- The block right after hardware reset (10_state.md R41) under a given configuration.  `allocOk`, `inputs`, `micro` and
`draws` are not the block's; their values here are DESIGN CHOICE (log entries 3, 4, 5 and 7). -/
def State.resetWith (cfg : Config) : State :=
  { cfg := cfg, life := .idle, buf := [], occ := 0, frames := 0, events := 0, seq := .ready, push := none, decReq := none,
    din := [], cmdPort := [], responses := [], eventPort := [], requests := [], decReads := [], allocOk := true, inputs := [],
    micro := none, draws := 0 }

/-- `State.resetWith` under the configuration of log entry 2. -/
def State.reset : State := State.resetWith Config.cfgB

end Sys2Proof.Machine
end

