-- ==== Sys2Proof/Machine/Flags.lean ====
section
/-! DEFINITION. EVENTS, the block's only flags (10_state.md R40), the saturating counter and the port codes. -/

namespace Sys2Proof.Machine

/-- An event's code, equal to its EVENTS bit and to `evt_code` (60_exceptions.md R180). -/
def eventCode : Event → BitVec 3
  | .garb => 0
  | .oversize => 1
  | .derr => 2
  | .dfatal => 3
  | .initerr => 4
  | .cmderr => 5
  | .noprog => 6

/-- The EVENTS mask with only the event's bit (10_state.md R35). -/
def eventBit (e : Event) : BitVec 8 := 1 <<< (eventCode e).toNat

/-- `raise EVT(info)` (60_exceptions.md R182): set the sticky bit and emit one record, set already or not. -/
def raiseEvent (e : Event) (info : Word) (s : State) : State :=
  { s with events := s.events ||| eventBit e, eventPort := s.eventPort ++ [⟨e, info⟩] }

/-- ACK's new EVENTS value (42_driver_commands.md R158): bit 7 of the mask is ignored. -/
def clearEvents (events mask : BitVec 8) : BitVec 8 := events &&& ~~~(mask &&& 0x7F)

/-- The level output `evt_pending` (30_encoding.md R80). -/
def evtPending (s : State) : Bool := s.events != 0

/-- `sat_inc32` (00_scope.md R13). -/
def satInc32 (x : BitVec 32) : BitVec 32 := if x = BitVec.allOnes 32 then x else x + 1

/-- `rsp_status` codes (30_encoding.md R78). -/
def statusCode : Status → BitVec 2
  | .ok => 0
  | .cmdErr => 1
  | .initErr => 2
  | .fatal => 3

/-- The encoding of `life` (10_state.md R22). -/
def lifeCode : Life → BitVec 2
  | .idle => 0
  | .active => 1
  | .stopped => 2

/-- `dec_rsp_code` (30_encoding.md R79): the reserved code 3 reads as fatal. -/
def decoderResult (code : BitVec 2) : DecoderResult :=
  if code = 0 then .ok else if code = 1 then .recoverable else .fatal

end Sys2Proof.Machine
end

