-- ==== Sys2Proof/Machine/Ops.lean ====
section
/-! DEFINITION. The named operations over the working buffer and the registers that the meanings share. -/

namespace Sys2Proof.Machine

/-! ### The buffer as memory -/

/-- The byte at an offset, where one is held. -/
def Memory.read : Memory → Nat → Option Byte
  | [], _ => none
  | (x, b) :: rest, a => if x = a then some b else Memory.read rest a

/-- `buf[a] <- b`, keeping the offsets strictly rising (00_scope.md R13). -/
def Memory.write : Memory → Nat → Byte → Memory
  | [], a, b => [(a, b)]
  | (x, c) :: rest, a, b =>
    if a < x then (a, b) :: (x, c) :: rest
    else if a = x then (a, b) :: rest
    else (x, c) :: Memory.write rest a b

/-- Writes of consecutive offsets, the first byte at the lowest (20_memory.md R53, R65). -/
def Memory.writeList : Memory → Nat → List Byte → Memory
  | m, _, [] => m
  | m, a, b :: bs => Memory.writeList (Memory.write m a b) (a + 1) bs

/-- Reads of consecutive offsets (20_memory.md R65). -/
def Memory.readList (m : Memory) : Nat → Nat → Option (List Byte)
  | _, 0 => some []
  | a, n + 1 =>
    match Memory.read m a, Memory.readList m (a + 1) n with
    | some b, some bs => some (b :: bs)
    | _, _ => none

/-- The shift of EVICT (40_buffer_manager.md R102): the bytes of `[off, occ)` move to `[0, occ - off)`, all at once, and every
other offset becomes unspecified. -/
def Memory.shift (m : Memory) (off occ : Nat) : Memory :=
  (m.filter fun c => decide (off ≤ c.1) && decide (c.1 < occ)).map fun c => (c.1 - off, c.2)

/-- The canonical form: offsets strictly rising.  An unlisted offset reads as no value, so no entry can equal it. -/
def Memory.wf : Memory → Bool
  | [] => true
  | [_] => true
  | c :: d :: rest => decide (c.1 < d.1) && Memory.wf (d :: rest)

/-- The memory that holds the given bytes at consecutive offsets from `a`. -/
def Memory.ofBytes : Nat → List Byte → Memory
  | _, [] => []
  | a, b :: bs => (a, b) :: Memory.ofBytes (a + 1) bs

/-- The bytes held, in offset order: the stream content `buf[0 .. occ)` where the buffer holds exactly that
(10_state.md R25). -/
def window (s : State) : List Byte := s.buf.map Prod.snd

/-- MemRead(a, n), "requires a + n <= occ"; outside it faults (20_memory.md R65). -/
def memRead (a n : Nat) (s : State) : Except Fault (List Byte) :=
  if a + n ≤ s.occ then
    match Memory.readList s.buf a n with
    | some v => .ok v
    | none => .error (.readUnspecified a n)
  else .error (.readOutOfBounds a n)

/-- MemWrite(a, n, v) with `n = |v|`, "requires … a + n <= C"; outside it faults (20_memory.md R65). -/
def memWrite (a : Nat) (v : List Byte) (s : State) : Except Fault State :=
  if a + v.length ≤ s.cfg.capacity then .ok { s with buf := Memory.writeList s.buf a v }
  else .error (.writeOutOfBounds a v.length)

/-- `occ <- 0`, every byte of `buf` unspecified: RESET, and the same effect in START, STOP and the fatal stop
(40_buffer_manager.md R104, R105). -/
def emptyBuffer (s : State) : State := { s with occ := 0, buf := [] }

/-! ### Configuration -/

/-- A legal configuration (00_scope.md R7). -/
def configLegal (c : Config) : Bool :=
  decide (1 ≤ c.markerLength) && decide (c.marker.length = c.markerLength)
    && decide (2 * c.markerLength ≤ c.capacity) && decide (c.capacity ≤ 2 ^ 31 - 1)

/-- Construction: "A model refuses any other configuration at construction" (00_scope.md R7). -/
def construct (c : Config) : Except Refusal State :=
  if configLegal c then .ok (State.resetWith c) else .error .illegalConfiguration

/-! ### Ending a command -/

/-- `respond(status, data)` (00_scope.md R13, 42_driver_commands.md R140): one response is delivered, the host withdraws the
untaken payload (30_encoding.md R76), the transients cease to exist (10_state.md R29) and `seq` is READY. -/
def respond (status : Status) (data : Word) (s : State) : State :=
  { s with responses := s.responses ++ [⟨status, data⟩], seq := .ready, din := [], push := none }

/-- ILLEGAL and wrong-state commands (42_driver_commands.md R160): `raise CMDERR(w); respond(CMD_ERR, 0)`. -/
def commandError (w : Word) (s : State) : State := respond .cmdErr 0 (raiseEvent .cmderr w s)

/-! ### The fatal stop, the block's only trap-like transition (60_exceptions.md R187), and the return from it -/

/-- Fatal-stop entry (60_exceptions.md R187): the event, `life <- Stopped`, `occ <- 0`, and the response.  Nothing else is
saved. -/
def fatalStop (e : Event) (info : Word) (status : Status) (data : Word) (s : State) : State :=
  respond status data (emptyBuffer { raiseEvent e info s with life := .stopped })

/-- A START that succeeds (42_driver_commands.md R141), which is also the return from the fatal stop (60_exceptions.md R188):
`life <- Active` over an empty buffer; `frames` and `events` stay. -/
def startActive (s : State) : State := respond .ok 0 { emptyBuffer s with life := .active }

/-! ### Hardware reset and command acceptance -/

/-- Hardware reset (70_reset_and_hazards.md R200): every state element takes its value of 10_state.md R41, the ports are idle,
the command in progress and the outstanding request are gone.  What the environment still presents or will do is not the
block's and stays. -/
def hardReset (s : State) : State :=
  { State.resetWith s.cfg with cmdPort := s.cmdPort, allocOk := s.allocOk, inputs := s.inputs, draws := s.draws }

/-- Acceptance of the oldest presented command (42_driver_commands.md R140 item 1): `seq <- BUSY`, and its payload is on the
data-in port. -/
def accept (c : HostCommand) (rest : List HostCommand) (s : State) : State :=
  { s with seq := .busy, cmdPort := rest, din := c.payload }

/-- The command the block accepts now, if any: only while `seq = READY` (20_memory.md R60). -/
def nextCommand (s : State) : Option (Word × State) :=
  match s.seq, s.cmdPort with
  | .ready, c :: rest => some (c.word, accept c rest s)
  | _, _ => none

end Sys2Proof.Machine
end

