-- ==== Sys2Proof/Machine/Operands.lean ====
section
/-! DEFINITION. The operand forms: the PUSH payload, the registers RDREG reads, FrameRange fields, and the static ports. -/

namespace Sys2Proof.Machine

/-- `n` free payload bytes, from draw `i` on (log entry 5). -/
def freePayload : Nat → Nat → List Byte
  | _, 0 => []
  | i, n + 1 => Config.freePayloadByte i :: freePayload (i + 1) n

/-- The payload `data[0 .. N)` of a PUSH (30_encoding.md R76): the bytes on the data-in port, of which the host presents `N`.
Bytes the environment's script does not list are free. -/
def pushPayload (n : Nat) (s : State) : List Byte :=
  s.din.take n ++ freePayload s.draws (n - s.din.length)

/-- The state with exactly the `N` payload bytes on the data-in port. -/
def presentPayload (n : Nat) (s : State) : State :=
  { s with din := pushPayload n s, draws := s.draws + (n - s.din.length) }

/-- The register names of 10_state.md R31. -/
inductive Reg where
  | state
  | occ
  | frames
  | events
  | cap
  | mlen
  deriving DecidableEq, Repr

/-- A register's index (10_state.md R31). -/
def regIndex : Reg → BitVec 4
  | .state => 0
  | .occ => 1
  | .frames => 2
  | .events => 3
  | .cap => 4
  | .mlen => 5

/-- The register an index selects; 6 to 15 are reserved (10_state.md R38). -/
def regOfIndex (idx : BitVec 4) : Option Reg :=
  if idx = 0 then some .state
  else if idx = 1 then some .occ
  else if idx = 2 then some .frames
  else if idx = 3 then some .events
  else if idx = 4 then some .cap
  else if idx = 5 then some .mlen
  else none

/-- The value RDREG presents (10_state.md R32 to R37). -/
def regValue (r : Reg) (s : State) : Word :=
  match r with
  | .state => (lifeCode s.life).setWidth 32
  | .occ => BitVec.ofNat 32 s.occ
  | .frames => s.frames
  | .events => s.events.setWidth 32
  | .cap => BitVec.ofNat 32 s.cfg.capacity
  | .mlen => BitVec.ofNat 32 s.cfg.markerLength

/-- A FrameRange field at a port: 32-bit two's complement, `-1` as `0xFFFFFFFF` (30_encoding.md R81). -/
def rangeField (x : Int) : Word := BitVec.ofInt 32 x

/-- `cfg_marker` as a number: `M[j]` at bits `[8j+7 : 8j]` (30_encoding.md R70). -/
def markerPort (c : Config) : Nat := c.marker.foldr (fun b acc => b.toNat + 256 * acc) 0

/-- `cfg_outchunk`, passed to the decoder unchanged (30_encoding.md R70, 92 D39). -/
def outChunkPort (s : State) : Nat := s.cfg.outChunk

end Sys2Proof.Machine
end

