-- ==== Sys2Proof/Machine/BufferManager.lean ====
section
/-! DEFINITION. The Frame Buffer Manager: APPEND, EVICT and RESET (40_buffer_manager.md). -/

namespace Sys2Proof.Machine

/-- APPEND(d) (40_buffer_manager.md R100): as many bytes as fit, and how many that was. -/
def append (d : List Byte) (s : State) : Except Fault (Nat × State) :=
  let n := min d.length (s.cfg.capacity - s.occ)
  match memWrite s.occ (d.take n) s with
  | .error f => .error f
  | .ok s' => .ok (n, { s' with occ := s.occ + n })

/-- EVICT(off) (40_buffer_manager.md R102); `off > occ` faults, never clamps (R103). -/
def evict (off : Nat) (s : State) : Except Fault State :=
  if off ≤ s.occ then .ok { s with buf := Memory.shift s.buf off s.occ, occ := s.occ - off }
  else .error (.evictBeyondOccupied off s.occ)

/-- The meaning of APPEND run by itself. -/
def execAppend (d : List Byte) (s : State) : Host.Outcome State Fault Refusal :=
  match append d s with
  | .error f => .fault f
  | .ok (n, s') => .next { s' with micro := some (.count n) }

/-- The meaning of EVICT run by itself. -/
def execEvict (off : Nat) (s : State) : Host.Outcome State Fault Refusal :=
  match evict off s with
  | .error f => .fault f
  | .ok s' => .next { s' with micro := none }

/-- The meaning of RESET run by itself (40_buffer_manager.md R104). -/
def execReset (s : State) : Host.Outcome State Fault Refusal :=
  .next { emptyBuffer s with micro := none }

end Sys2Proof.Machine
end

