-- ==== Sys2Proof/Machine/Synchronizer.lean ====
section
/-! DEFINITION. The Synchronizer and the frame-range validator: FIND_MARKER, COMPUTE_RANGE and VALIDATE
(41_synchronizer.md). -/

namespace Sys2Proof.Machine

/-- `buf[o + j] = M[j]` (20_memory.md R53). -/
def markerByteAt (o j : Nat) (s : State) : Bool :=
  match Memory.read s.buf (o + j), s.cfg.marker[j]? with
  | some b, some m => b == m
  | _, _ => false

/-- `forall j in 0 .. L-1: buf[o+j] = M[j]` (41_synchronizer.md R120). -/
def markerAt (o : Nat) (s : State) : Bool :=
  (List.range s.cfg.markerLength).all fun j => markerByteAt o j s

/-- FIND_MARKER(from) (41_synchronizer.md R120): the offsets `from .. occ - L` in rising order, none when `from + L > occ`. -/
def findMarker (origin : Nat) (s : State) : Option Nat :=
  (List.range' origin (s.occ + 1 - (origin + s.cfg.markerLength))).find? fun o => markerAt o s

/-- COMPUTE_RANGE() (41_synchronizer.md R122); the second search is made before the eviction. -/
def computeRange (s : State) : Except Fault (RangeResult × State) :=
  match findMarker 0 s with
  | none => .ok (⟨.nosync, ⟨-1, -1⟩, false⟩, s)
  | some st =>
    let en := findMarker (st + s.cfg.markerLength) s
    let evicted : Except Fault (Bool × State) :=
      if st > 0 then
        match evict st s with
        | .error f => .error f
        | .ok s' => .ok (true, s')
      else .ok (false, s)
    match evicted, en with
    | .error f, _ => .error f
    | .ok (ev, s'), none => .ok (⟨.incomplete, ⟨0, -1⟩, ev⟩, s')
    | .ok (ev, s'), some e => .ok (⟨.valid, ⟨0, (e : Int) - (st : Int)⟩, ev⟩, s')

/-- VALIDATE(start, end) over capacity `C` (41_synchronizer.md R128), on integers, so signed. -/
def validate (capacity : Nat) (r : FrameRange) : Bool :=
  decide (0 ≤ r.first) && decide (r.first < r.last) && decide (r.last - r.first ≤ (capacity : Int))

/-- The meaning of FIND_MARKER run by itself. -/
def execFindMarker (origin : Nat) (s : State) : Host.Outcome State Fault Refusal :=
  .next { s with micro := some (.marker (findMarker origin s)) }

/-- The meaning of COMPUTE_RANGE run by itself. -/
def execComputeRange (s : State) : Host.Outcome State Fault Refusal :=
  match computeRange s with
  | .error f => .fault f
  | .ok (r, s') => .next { s' with micro := some (.range r) }

/-- The meaning of VALIDATE run by itself. -/
def execValidate (first last : Int) (s : State) : Host.Outcome State Fault Refusal :=
  .next { s with micro := some (.valid (validate s.cfg.capacity ⟨first, last⟩)) }

end Sys2Proof.Machine
end

