-- ==== Sys2Proof/Machine/Driver.lean ====
section
/-! DEFINITION. The driver sequencer: DISPATCH, the push/decode cycle and the host commands (42_driver_commands.md). -/

namespace Sys2Proof.Machine

/-! ### DISPATCH -/

/-- The request half of DISPATCH(e) (42_driver_commands.md R148): `dec_start = 0`, `dec_end = e`, and the copy `MemRead(0, e)`;
from here the block waits for the decoder (10_state.md R30). -/
def dispatch (e : Nat) (s : State) : Except Fault State :=
  match memRead 0 e s with
  | .error f => .error f
  | .ok frame =>
    .ok { s with decReq := some e, requests := s.requests ++ [⟨rangeField 0, rangeField e, frame⟩] }

/-- The meaning of DISPATCH run by itself; `decoderResponds` is its other half.  DESIGN CHOICE (log entry 19): it leaves `seq` as it
is, so that in a READY block the next presented command is accepted while the request is outstanding.  The spec has no DISPATCH
outside a BUSY PUSH, where nothing is accepted before the answer (10_state.md R30, 20_memory.md R60). -/
def execDispatch (e : Nat) (s : State) : Host.Outcome State Fault Refusal :=
  match dispatch e s with
  | .error f => .fault f
  | .ok s' => .next { s' with micro := none }

/-! ### The push/decode cycle (42_driver_commands.md R145) -/

/-- How a stretch of the cycle ends: with an outcome (a response, or the wait for the decoder), or in a further outer pass. -/
inductive PassEnd where
  | done (o : Host.Outcome State Fault Refusal)
  | again (k nop : Nat) (s : State)

/-- Step 6 and the anti-livelock guard (42_driver_commands.md R154). -/
def progressGuard (prog : Bool) (k nop : Nat) (s : State) : PassEnd :=
  let nop' := if prog then 0 else nop + 1
  if nop' = 2 then
    .done (.next (respond .ok (BitVec.ofNat 32 k) (raiseEvent .noprog (BitVec.ofNat 32 s.occ) (emptyBuffer s))))
  else .again k nop' s

/-- The garbage reset of step 5 (42_driver_commands.md R153). -/
def garbageReset (cls : Classification) (s : State) : State :=
  let event := if cls = .nosync then Event.garb else Event.oversize
  raiseEvent event (BitVec.ofNat 32 s.cfg.capacity) (emptyBuffer s)

/-- Steps 4 to 6, once the range is not valid (42_driver_commands.md R145, R152, R153). -/
def endOfPass (cls : Classification) (k nop : Nat) (s : State) : PassEnd :=
  if s.occ = s.cfg.capacity then progressGuard true k nop (garbageReset cls s)
  else .done (.next (respond .ok (BitVec.ofNat 32 k) s))

/-- Steps 2 and 3 up to the next dispatch, or on to the end of the pass (42_driver_commands.md R145, R147). -/
def innerLoop (k nop : Nat) (prog : Bool) (s : State) : PassEnd :=
  match computeRange s with
  | .error f => .done (.fault f)
  | .ok (r, s') =>
    if validate s'.cfg.capacity r.range then
      match dispatch r.range.last.toNat s' with
      | .error f => .done (.fault f)
      | .ok s'' => .done (.next { s'' with push := some ⟨k, nop, prog || r.ev⟩ })
    else endOfPass r.cls k nop s'

/-- One outer pass from step 1 on (42_driver_commands.md R145, R146). -/
def outerPass (k nop : Nat) (s : State) : PassEnd :=
  match append s.din s with
  | .error f => .done (.fault f)
  | .ok (n, s') => innerLoop (k + n) nop (decide (n > 0)) { s' with din := s'.din.drop n }

/-- Outer passes until one ends the stretch; the first argument bounds their number. -/
def outerLoop : Nat → Nat → Nat → State → Host.Outcome State Fault Refusal
  | 0, _, _, _ => .fault .passBoundExceeded
  | fuel + 1, k, nop, s =>
    match outerPass k nop s with
    | .done o => o
    | .again k' nop' s' => outerLoop fuel k' nop' s'

/-- A bound on the outer passes of a PUSH with the given payload left (42_driver_commands.md R157): each pass after a garbage
reset that resets again has taken at least one byte. -/
def passBound (s : State) : Nat := s.din.length + 2

/-- The cycle from inside the inner loop on: where the decoder's answer resumes it. -/
def resumePush (k nop : Nat) (prog : Bool) (s : State) : Host.Outcome State Fault Refusal :=
  match innerLoop k nop prog s with
  | .done o => o
  | .again k' nop' s' => outerLoop (passBound s') k' nop' s'

/-! ### The decoder's answer -/

/-- The outstanding request has been answered: no request, and the waiting PUSH is running again (10_state.md R30). -/
def requestAnswered (s : State) : State := { s with decReq := none, push := none }

/-- `frames <- sat_inc32(frames)` (10_state.md R27). -/
def countFrame (s : State) : State := { s with frames := satInc32 s.frames }

/-- What a decoder result does to a PUSH (42_driver_commands.md R149, R150, R151); `s` has no request outstanding any more. -/
def frameDecoded (c : PushLoop) (e : Nat) (r : DecoderResult) (s : State) : Host.Outcome State Fault Refusal :=
  match r with
  | .fatal => .next (fatalStop .dfatal (BitVec.ofNat 32 e) .fatal (BitVec.ofNat 32 c.k) s)
  | .ok | .recoverable =>
    match evict e (if r = .recoverable then raiseEvent .derr (BitVec.ofNat 32 e) s else s) with
    | .error f => .fault f
    | .ok s' => resumePush c.k c.nop true (countFrame s')

/-- The decoder responds (42_driver_commands.md R148, 30_encoding.md R79).  With no request outstanding no transfer takes place
(log entry 9); a DISPATCH run by itself returns its result. -/
def decoderResponds (code : BitVec 2) (s : State) : Host.Outcome State Fault Refusal :=
  match s.decReq with
  | none => .next s
  | some e =>
    match s.push with
    | none => .next { s with decReq := none, micro := some (.decoded (decoderResult code)) }
    | some c => frameDecoded c e (decoderResult code) (requestAnswered s)

/-! ### The host commands -/

/-- START (42_driver_commands.md R141). -/
def execStart (s : State) : Host.Outcome State Fault Refusal :=
  .next
    (if s.life = .active then commandError (commandWord .start) s
     else if s.allocOk then startActive s
     else fatalStop .initerr 0 .initErr 0 s)

/-- STOP (42_driver_commands.md R143). -/
def execStop (s : State) : Host.Outcome State Fault Refusal :=
  .next (respond .ok 0 (if s.life = .active then emptyBuffer { s with life := .stopped } else s))

/-- PUSH(N) (42_driver_commands.md R144, R145), up to its response or its first dispatch. -/
def execPush (n : BitVec 16) (s : State) : Host.Outcome State Fault Refusal :=
  if s.life = .active then
    let s' := presentPayload n.toNat s
    outerLoop (passBound s') 0 0 s'
  else .next (commandError (commandWord (.push n)) s)

/-- ACK(mask) (42_driver_commands.md R158). -/
def execAck (mask : BitVec 8) (s : State) : Host.Outcome State Fault Refusal :=
  .next (respond .ok 0 { s with events := clearEvents s.events mask })

/-- RDREG(idx) (42_driver_commands.md R159). -/
def execRdreg (idx : BitVec 4) (s : State) : Host.Outcome State Fault Refusal :=
  match regOfIndex idx with
  | some r => .next (respond .ok (regValue r s) s)
  | none => .next (commandError (commandWord (.rdreg idx)) s)

/-- ILLEGAL(w) (42_driver_commands.md R160). -/
def execIllegal (w : Word) (s : State) : Host.Outcome State Fault Refusal :=
  .next (commandError w s)

end Sys2Proof.Machine
end

