-- ==== Sys2Proof/Machine/Dispatch.lean ====
section
/-! DEFINITION. The one dispatch from instructions to their meanings. -/

namespace Sys2Proof.Machine

/-- What an instruction does. -/
def exec (i : Instr) (s : State) : Host.Outcome State Fault Refusal :=
  match i with
  | .start => Sys2Proof.Machine.execStart s
  | .stop => Sys2Proof.Machine.execStop s
  | .push n => Sys2Proof.Machine.execPush n s
  | .ack mask => Sys2Proof.Machine.execAck mask s
  | .rdreg idx => Sys2Proof.Machine.execRdreg idx s
  | .illegal w => Sys2Proof.Machine.execIllegal w s
  | .append d => Sys2Proof.Machine.execAppend d s
  | .evict off => Sys2Proof.Machine.execEvict off s
  | .reset => Sys2Proof.Machine.execReset s
  | .findMarker origin => Sys2Proof.Machine.execFindMarker origin s
  | .computeRange => Sys2Proof.Machine.execComputeRange s
  | .validate first last => Sys2Proof.Machine.execValidate first last s
  | .dispatch e => Sys2Proof.Machine.execDispatch e s

end Sys2Proof.Machine
end

