-- ==== Sys2Proof/Machine/Environment.lean ====
section
/-! DEFINITION. What the environment's acts do to the block (00_scope.md R11): the host's presented commands, the decoder, the
platform's pins. -/

namespace Sys2Proof.Machine

/-- The byte a decoder read returns (20_memory.md R61, 70_reset_and_hazards.md R206): `buf[a]` for `a < dec_end` while the
request is outstanding; anything else is an unspecified byte (log entry 6). -/
def decoderReadData (addr : Word) (s : State) : Byte :=
  let free := Config.freeDecoderByte s.draws
  match s.decReq with
  | none => free
  | some e => if addr.toNat < e then (Memory.read s.buf addr.toNat).getD free else free

/-- A transfer on the decoder read port; the block's own state is unchanged. -/
def decoderReads (addr : Word) (s : State) : State :=
  { s with decReads := s.decReads ++ [decoderReadData addr s], draws := s.draws + 1 }

/-- One act of the environment. -/
def receive (i : Input) (s : State) : Host.Outcome State Fault Refusal :=
  match i with
  | .command c => .next { s with cmdPort := s.cmdPort ++ [c] }
  | .decoderResponse code => decoderResponds code s
  | .lateDecoderResponse _ => .next s
  | .decoderRead addr => .next (decoderReads addr s)
  | .allocOk level => .next { s with allocOk := level }
  | .hardwareReset => .next (hardReset s)

/-- The block waits: the next act of the environment takes place, or nothing happens (10_state.md R30, 20_memory.md R60). -/
def waitForEnvironment (s : State) : Host.Outcome State Fault Refusal :=
  match s.inputs with
  | [] => .next s
  | i :: rest => receive i { s with inputs := rest }

end Sys2Proof.Machine
end

