-- ==== Sys2Proof/Machine/Step.lean ====
section
/-! DEFINITION. One step: the block accepts and runs a presented command, or waits for its environment
(42_driver_commands.md R140). -/

namespace Sys2Proof.Machine

/-- One step.  An illegal configuration is refused (00_scope.md R7); a READY block with a command presented accepts, decodes
and executes it (42_driver_commands.md R140); otherwise the environment acts. -/
def step (s : State) : Host.Outcome State Fault Refusal :=
  if configLegal s.cfg then
    match nextCommand s with
    | some (w, s') => exec (decode w) s'
    | none => waitForEnvironment s
  else .refused .illegalConfiguration

/-- The state in which the host has presented the command word `w` and the block is READY for it: the very next step accepts
and runs it.  A PUSH comes with its `N` payload bytes, all zero (log entry 10). -/
def State.withFetchWord (s : State) (nbits w : Nat) : State :=
  let word := BitVec.ofNat 32 (w % 2 ^ nbits)
  let payload := match decode word with
    | .push n => List.replicate n.toNat (0 : Byte)
    | _ => []
  { s with seq := .ready, push := none, decReq := none, cmdPort := ⟨word, payload⟩ :: s.cmdPort }

end Sys2Proof.Machine
end

