-- ==== Sys2Proof/Machine/HostSide.lean ====
section
/-! DEFINITION. The host's side of the ports: the program syntax of 30_encoding.md R82, the pseudo-commands of R83, and one
command run to its response.  Everything here goes through `step`. -/

namespace Sys2Proof.Machine

/-- One line of a program (30_encoding.md R82). -/
inductive AsmLine where
  | start
  | stop
  /-- `PUSH N, [b0 … bN-1]`. -/
  | push (n : BitVec 16) (bytes : List Byte)
  | ack (mask : BitVec 8)
  /-- `RDREG reg` by name. -/
  | rdregNamed (r : Reg)
  /-- `RDREG reg` by number. -/
  | rdregNumber (idx : BitVec 4)
  /-- `.word 0xHHHHHHHH`. -/
  | word (w : Word)
  /-- The pseudo-command `ACKALL` (R83). -/
  | ackAll
  deriving DecidableEq, Repr

/-- The command a line stands for (30_encoding.md R82, R83). -/
def assemble : AsmLine → HostCommand
  | .start => ⟨commandWord .start, []⟩
  | .stop => ⟨commandWord .stop, []⟩
  | .push n bytes => ⟨commandWord (.push n), bytes⟩
  | .ack mask => ⟨commandWord (.ack mask), []⟩
  | .rdregNamed r => ⟨commandWord (.rdreg (regIndex r)), []⟩
  | .rdregNumber idx => ⟨commandWord (.rdreg idx), []⟩
  | .word w => ⟨w, []⟩
  | .ackAll => ⟨commandWord (.ack 0x7F), []⟩

/-- The decoder answers outstanding requests with the listed codes in turn until none is outstanding; the state then, and the
codes left.  None where the codes run out first: the run is not finished (10_state.md R30). -/
def answerAll : List (BitVec 2) → State → Option (State × List (BitVec 2))
  | [], s => if s.decReq = none then some (s, []) else none
  | c :: cs, s =>
    if s.decReq = none then some (s, c :: cs)
    else
      match step { s with inputs := .decoderResponse c :: s.inputs } with
      | .next s' => answerAll cs s'
      | .fault _ => none
      | .refused _ => none

/-- The host presents one command, and it runs to its response. -/
def transact (c : HostCommand) (codes : List (BitVec 2)) (s : State) : Option (State × List (BitVec 2)) :=
  match step { s with cmdPort := s.cmdPort ++ [c] } with
  | .next s' => answerAll codes s'
  | .fault _ => none
  | .refused _ => none

/-- `PUSH |d|, d`. -/
def pushCommand (d : List Byte) : HostCommand := assemble (.push (BitVec.ofNat 16 d.length) d)

/-- The loop of FEED (30_encoding.md R83): PUSH at most 65535 bytes, go on behind the `k` bytes taken, end at a status that is
not OK.  The first argument bounds the number of PUSHes. -/
def feedLoop : Nat → List Byte → List (BitVec 2) → State → Option (State × List (BitVec 2))
  | 0, _, _, _ => none
  | fuel + 1, d, codes, s =>
    if d = [] then some (s, codes)
    else
      match transact (pushCommand (d.take 65535)) codes s with
      | none => none
      | some (s', codes') =>
        match s'.responses.getLast? with
        | none => none
        | some r =>
          if r.status = .ok then feedLoop fuel (d.drop r.data.toNat) codes' s' else some (s', codes')

/-- `FEED [d]`, which "ends after at most |d| PUSHes" (30_encoding.md R83). -/
def feed (d : List Byte) (codes : List (BitVec 2)) (s : State) : Option (State × List (BitVec 2)) :=
  feedLoop (d.length + 1) d codes s

/-- A stream fed chunk by chunk, each remainder re-pushed (70_reset_and_hazards.md R207), until the block is no longer
Active. -/
def feedChunks : List (List Byte) → List (BitVec 2) → State → Option (State × List (BitVec 2))
  | [], codes, s => some (s, codes)
  | d :: ds, codes, s =>
    match feed d codes s with
    | none => none
    | some (s', codes') => if s'.life = .active then feedChunks ds codes' s' else some (s', codes')

end Sys2Proof.Machine
end

