-- ==== Sys2Proof/Safety.lean ====
section
/-! DEFINITION. What a safe state is: the invariants of 10_state.md R25, R26, R42 and of 42_driver_commands.md, in the terms
the statements use. -/

namespace Sys2Proof.Machine

/-- The buffer holds a value at exactly the offsets `[0, occ)` (10_state.md R23). -/
abbrev BufferExact (s : State) : Prop := s.buf = Memory.ofBytes 0 (window s) ∧ s.occ = s.buf.length

/-- The buffer holds no complete frame and no prefix to evict: no marker at all, or one at offset 0 and none from offset `L`
on (42_driver_commands.md R144, the corner case `N = 0`). -/
abbrev Quiescent (s : State) : Prop :=
  findMarker 0 s = none ∨ (findMarker 0 s = some 0 ∧ findMarker s.cfg.markerLength s = none)

/-- A request of length `e` is outstanding for the frame at the front of the buffer: a marker at 0 and the next one at `e`,
both whole (41_synchronizer.md R126, R132, R133). -/
abbrev FramePending (e : Nat) (s : State) : Prop :=
  s.decReq = some e ∧ s.cfg.markerLength ≤ e ∧ e + s.cfg.markerLength ≤ s.occ ∧ markerAt 0 s = true ∧ markerAt e s = true

/-- The invariant of every reachable state. -/
structure Inv (s : State) : Prop where
  /-- The configuration is legal (00_scope.md R7). -/
  legal : configLegal s.cfg = true
  /-- Exactly the occupied bytes hold a value (10_state.md R23). -/
  exact : BufferExact s
  /-- `occ <= C` (10_state.md R42 item 1). -/
  bound : s.occ ≤ s.cfg.capacity
  /-- `life != Active` implies `occ = 0` (10_state.md R42 item 2). -/
  inactive : s.life ≠ .active → s.occ = 0
  /-- EVENTS bit 7 is 0 (10_state.md R40). -/
  reserved : s.events.getLsbD 7 = false
  /-- A READY block has no transient state (10_state.md R29, R30). -/
  ready : s.seq = .ready → s.push = none ∧ s.decReq = none
  /-- Between commands in `Active`: `occ < C` (10_state.md R25) and no complete frame (42_driver_commands.md R144). -/
  rest : s.seq = .ready → s.life = .active → s.occ < s.cfg.capacity ∧ Quiescent s
  /-- Between steps a BUSY block is a PUSH that waits for the decoder (10_state.md R30). -/
  busy : s.seq = .busy → s.life = .active ∧ s.push.isSome = true ∧ ∃ e, FramePending e s

/-- Every frame handed to the decoder is `[0, dec_end)` with its leading marker, at least `L` and at most `C - L` bytes long
(41_synchronizer.md R132, R133), and while one is outstanding the buffer still begins with it (20_memory.md R61). -/
structure Framed (s : State) : Prop where
  shape : ∀ r ∈ s.requests, r.decStart = 0 ∧ r.frame.length = r.decEnd.toNat ∧ s.cfg.markerLength ≤ r.frame.length ∧
    r.frame.length + s.cfg.markerLength ≤ s.cfg.capacity ∧ r.frame.take s.cfg.markerLength = s.cfg.marker
  outstanding : ∀ e, s.decReq = some e →
    ∃ r, s.requests.getLast? = some r ∧ r.frame = (window s).take e ∧ r.frame.length = e

/-- A run of `step` that meets no fault and no refusal. -/
def SafeRun (n : Nat) (s : State) : Prop := ∃ t, Host.Core.run Sys2Proof.core n s = .next t

end Sys2Proof.Machine
end

