-- ==== Sys2Proof/Certificates/Slice0/Obligations.lean ====
section
/-! DEFINITION. The statements for the provers.  A byte that a rule leaves unspecified is never claimed: where a rule empties
the buffer, the statement lets the bytes be any `b`.  `micro` is the model's own place for a micro-operation's result (log
entry 7) and `draws` the model's own count of free values (log entries 5 and 6). -/

open Sys2Proof Sys2Proof.Machine

/-! ### Encoding -/

/-- Decoding the word of a well-formed instruction gives it back, every operand at every value its field admits. -/
def Obligations.DecodeOfEncode : Prop :=
  ∀ (i : Instr) (w : Word), wellFormed i = true → encode i = some w → decode w = i

/-- Every word is the word of what it decodes to, and what it decodes to is well formed. -/
def Obligations.EncodeOfDecode : Prop :=
  ∀ w : Word, encode (decode w) = some w ∧ wellFormed (decode w) = true

/-- 30_encoding.md R84, in the match and mask form of R73 and with the operands of R72: the six outcomes of decoding. -/
def Obligations.DecodeByMatchAndMask : Prop :=
  ∀ w : Word,
    (decode w = .start ↔ w &&& 0xFFFFFFFF = 0x10000000) ∧
    (decode w = .stop ↔ w &&& 0xFFFFFFFF = 0x20000000) ∧
    (∀ n : BitVec 16, decode w = .push n ↔ w &&& 0xFFFF0000 = 0x30000000 ∧ n = w.extractLsb' 0 16) ∧
    (∀ mask : BitVec 8, decode w = .ack mask ↔ w &&& 0xFFFFFF00 = 0x40000000 ∧ mask = w.extractLsb' 0 8) ∧
    (∀ idx : BitVec 4, decode w = .rdreg idx ↔ w &&& 0xFFFFFFF0 = 0x50000000 ∧ idx = w.extractLsb' 0 4) ∧
    (∀ v : Word, decode w = .illegal v ↔ v = w ∧ w &&& 0xFFFFFFFF ≠ 0x10000000 ∧ w &&& 0xFFFFFFFF ≠ 0x20000000 ∧
      w &&& 0xFFFF0000 ≠ 0x30000000 ∧ w &&& 0xFFFFFF00 ≠ 0x40000000 ∧ w &&& 0xFFFFFFF0 ≠ 0x50000000)

/-- Words written out from 30_encoding.md R71 and R73 (95_test_vectors.md L2-1). -/
def Obligations.SpecWordsDecode : Prop :=
  decode 0x10000000 = .start ∧ decode 0x20000000 = .stop ∧ decode 0x3000FFFF = .push 0xFFFF ∧
  decode 0x4000007F = .ack 0x7F ∧ decode 0x50000003 = .rdreg 3 ∧ decode 0x28000000 = .illegal 0x28000000 ∧
  decode 0x40000100 = .illegal 0x40000100 ∧ decode 0 = .illegal 0

/-- 30_encoding.md R85: no word is a micro-operation, and none has a word. -/
def Obligations.MicroOperationsAreNotIssuable : Prop :=
  (∀ w : Word, isHostCommand (decode w) = true) ∧
  (∀ i : Instr, isHostCommand i = false → encode i = none)

/-! ### Steps -/

/-- 42_driver_commands.md R140, items 1 to 3: a READY block accepts the oldest presented command, is BUSY, has the payload on the
data-in port, and executes what the word decodes to.  That it is the oldest of several presented commands, and that it runs
before any act at the head of `inputs`, a hardware reset included, are the model's choices (log entries 17 and 3). -/
def Obligations.StepRunsAcceptedCommand : Prop :=
  ∀ (s : State) (c : HostCommand) (rest : List HostCommand), configLegal s.cfg = true → s.seq = .ready → s.cmdPort = c :: rest →
    step s = exec (decode c.word) { s with seq := .busy, cmdPort := rest, din := c.payload }

/-- 20_memory.md R60: a BUSY block accepts nothing, and a command presented to it waits on the port.  The list of acts and the
queue on the port are the model's choice (log entries 3 and 17). -/
def Obligations.CommandWaitsWhileBusy : Prop :=
  ∀ (s : State) (c : HostCommand) (rest : List Input), configLegal s.cfg = true → s.seq = .busy →
    s.inputs = .command c :: rest → step s = .next { s with inputs := rest, cmdPort := s.cmdPort ++ [c] }

/-- 00_scope.md R7: exactly the legal configurations are built.  That every step of a state with another one is refused is the
model's choice, since it holds the configuration in State (log entry 1). -/
def Obligations.IllegalConfigurationRefused : Prop :=
  ∀ c : Config,
    ((1 ≤ c.markerLength ∧ c.marker.length = c.markerLength ∧ 2 * c.markerLength ≤ c.capacity ∧ c.capacity ≤ 2 ^ 31 - 1) →
      construct c = .ok (State.resetWith c)) ∧
    (¬ (1 ≤ c.markerLength ∧ c.marker.length = c.markerLength ∧ 2 * c.markerLength ≤ c.capacity ∧ c.capacity ≤ 2 ^ 31 - 1) →
      construct c = .error .illegalConfiguration ∧ ∀ s : State, s.cfg = c → step s = .refused .illegalConfiguration)

/-! ### START, STOP, ACK, RDREG, ILLEGAL -/

/-- 42_driver_commands.md R141: the three results of START, all else unchanged. -/
def Obligations.StartResult : Prop :=
  ∀ s : State,
    (s.life = .active → exec .start s = .next { s with
      events := s.events ||| 0x20, eventPort := s.eventPort ++ [⟨.cmderr, 0x10000000⟩],
      responses := s.responses ++ [⟨.cmdErr, 0⟩], seq := .ready, din := [], push := none }) ∧
    (s.life ≠ .active → s.allocOk = true → ∃ b, exec .start s = .next { s with
      life := .active, occ := 0, buf := b,
      responses := s.responses ++ [⟨.ok, 0⟩], seq := .ready, din := [], push := none }) ∧
    (s.life ≠ .active → s.allocOk = false → ∃ b, exec .start s = .next { s with
      life := .stopped, occ := 0, buf := b, events := s.events ||| 0x10, eventPort := s.eventPort ++ [⟨.initerr, 0⟩],
      responses := s.responses ++ [⟨.initErr, 0⟩], seq := .ready, din := [], push := none })

/-- 42_driver_commands.md R143: STOP; that a second one changes nothing more than its response; and that a presented STOP does not
pre-empt a running PUSH: the step of a BUSY block is its environment's. -/
def Obligations.StopResult : Prop :=
  ∀ s : State,
    (s.life = .active → ∃ b, exec .stop s = .next { s with
      life := .stopped, occ := 0, buf := b,
      responses := s.responses ++ [⟨.ok, 0⟩], seq := .ready, din := [], push := none }) ∧
    (s.life ≠ .active → exec .stop s = .next { s with
      responses := s.responses ++ [⟨.ok, 0⟩], seq := .ready, din := [], push := none }) ∧
    (∀ t, exec .stop s = .next t → exec .stop t = .next { t with responses := t.responses ++ [⟨.ok, 0⟩] }) ∧
    (∀ c rest, configLegal s.cfg = true → s.seq = .busy → s.cmdPort = c :: rest → decode c.word = .stop →
      step s = waitForEnvironment s)

/-- 42_driver_commands.md R158: ACK clears exactly the EVENTS bits its mask names, bit 7 of the mask ignored, in every `life`, and
emits and undoes no record; `evt_pending` falls when EVENTS becomes 0. -/
def Obligations.AckClearsNamedBits : Prop :=
  ∀ (s : State) (mask : BitVec 8), ∃ ev : BitVec 8,
    exec (.ack mask) s = .next { s with
      events := ev, responses := s.responses ++ [⟨.ok, 0⟩], seq := .ready, din := [], push := none } ∧
    (∀ i, i < 7 → ev.getLsbD i = (s.events.getLsbD i && !mask.getLsbD i)) ∧
    ev.getLsbD 7 = s.events.getLsbD 7 ∧
    ∀ t, exec (.ack mask) s = .next t → (evtPending t = false ↔ ev = 0)

/-- 42_driver_commands.md R159 with the values of 10_state.md R32 to R37: RDREG of each register and of each reserved index, in
every `life`, all else unchanged. -/
def Obligations.RdregReadsItsRegister : Prop :=
  ∀ s : State,
    let answer := fun (x : Word) => (Host.Outcome.next
      { s with responses := s.responses ++ [⟨.ok, x⟩], seq := .ready, din := [], push := none } :
      Host.Outcome State Fault Refusal)
    (s.life = .idle → exec (.rdreg 0) s = answer 0) ∧
    (s.life = .active → exec (.rdreg 0) s = answer 1) ∧
    (s.life = .stopped → exec (.rdreg 0) s = answer 2) ∧
    exec (.rdreg 1) s = answer (BitVec.ofNat 32 s.occ) ∧
    exec (.rdreg 2) s = answer s.frames ∧
    exec (.rdreg 3) s = answer (s.events.setWidth 32) ∧
    exec (.rdreg 4) s = answer (BitVec.ofNat 32 s.cfg.capacity) ∧
    exec (.rdreg 5) s = answer (BitVec.ofNat 32 s.cfg.markerLength) ∧
    (∀ idx : BitVec 4, 6 ≤ idx.toNat → exec (.rdreg idx) s = .next { s with
      events := s.events ||| 0x20, eventPort := s.eventPort ++ [⟨.cmderr, 0x50000000 ||| idx.setWidth 32⟩],
      responses := s.responses ++ [⟨.cmdErr, 0⟩], seq := .ready, din := [], push := none })

/-- 42_driver_commands.md R160: the four ways to a CMD_ERR and their one effect; for PUSH no payload byte is taken.  The all-zero
word is ILLEGAL, and so is a START with a reserved bit set. -/
def Obligations.IllegalAndWrongStateCommands : Prop :=
  ∀ s : State,
    let refusedWith := fun (w : Word) => (Host.Outcome.next { s with
      events := s.events ||| 0x20, eventPort := s.eventPort ++ [⟨.cmderr, w⟩],
      responses := s.responses ++ [⟨.cmdErr, 0⟩], seq := .ready, din := [], push := none } :
      Host.Outcome State Fault Refusal)
    (∀ w, exec (.illegal w) s = refusedWith w) ∧
    (∀ idx : BitVec 4, 6 ≤ idx.toNat → exec (.rdreg idx) s = refusedWith (0x50000000 ||| idx.setWidth 32)) ∧
    (s.life = .active → exec .start s = refusedWith 0x10000000) ∧
    (s.life ≠ .active → ∀ n : BitVec 16, exec (.push n) s = refusedWith (0x30000000 ||| n.setWidth 32)) ∧
    decode 0 = .illegal 0 ∧
    (∀ w : Word, w.extractLsb' 28 4 = 1 → w ≠ 0x10000000 → decode w = .illegal w)

/-- 60_exceptions.md R182 with the codes of R180: a raise sets its bit, emits one record, and changes nothing else. -/
def Obligations.RaiseSetsBitAndEmitsRecord : Prop :=
  ∀ (e : Event) (info : Word) (s : State), ∃ ev : BitVec 8,
    raiseEvent e info s = { s with events := ev, eventPort := s.eventPort ++ [⟨e, info⟩] } ∧
    ∀ i, i < 8 → ev.getLsbD i = (s.events.getLsbD i || decide (i =
      match e with
      | .garb => 0 | .oversize => 1 | .derr => 2 | .dfatal => 3 | .initerr => 4 | .cmderr => 5 | .noprog => 6))

/-! ### The Frame Buffer Manager -/

/-- 40_buffer_manager.md R100: APPEND takes what fits, in stream order, and changes no other byte. -/
def Obligations.AppendTakesWhatFits : Prop :=
  ∀ (s : State) (d : List Byte), s.occ ≤ s.cfg.capacity →
    let n := min d.length (s.cfg.capacity - s.occ)
    ∃ b, exec (.append d) s = .next { s with buf := b, occ := s.occ + n, micro := some (.count n) } ∧
      (∀ i, i < n → Memory.read b (s.occ + i) = d[i]?) ∧
      (∀ a, (a < s.occ ∨ s.occ + n ≤ a) → Memory.read b a = Memory.read s.buf a)

/-- 40_buffer_manager.md R102, R103: EVICT shifts the rest to offset 0, all right-hand sides read first; beyond `occ` it faults. -/
def Obligations.EvictShiftsTheRest : Prop :=
  ∀ (s : State) (off : Nat),
    (off ≤ s.occ → ∃ b, exec (.evict off) s = .next { s with buf := b, occ := s.occ - off, micro := none } ∧
      ∀ i, i < s.occ - off → Memory.read b i = Memory.read s.buf (off + i)) ∧
    (s.occ < off → exec (.evict off) s = .fault (.evictBeyondOccupied off s.occ))

/-- 40_buffer_manager.md R104: RESET empties the buffer and changes nothing else. -/
def Obligations.BufferResetEmpties : Prop :=
  ∀ s : State, ∃ b, exec .reset s = .next { s with buf := b, occ := 0, micro := none }

/-- 40_buffer_manager.md R105: on a buffer that holds exactly its occupied bytes, EVICT of all of them is RESET, and EVICT of none
changes nothing.  That the two states are equal, unspecified bytes included, is the model's choice (log entry 8). -/
def Obligations.ResetIsEvictionOfEverything : Prop :=
  ∀ s : State, BufferExact s →
    exec (.evict s.occ) s = exec .reset s ∧ exec (.evict 0) s = .next { s with micro := none }

/-! ### The Synchronizer -/

/-- 41_synchronizer.md R120, R121: FIND_MARKER answers the lowest offset from `origin` on at which all `L` marker bytes lie in the
occupied window and equal `M`, and none exactly when there is no such offset; it writes nothing else. -/
def Obligations.FindMarkerAnswersLowestMatch : Prop :=
  ∀ (s : State) (origin : Nat),
    let matchesAt := fun o => o + s.cfg.markerLength ≤ s.occ ∧
      ∀ j, j < s.cfg.markerLength → ∃ b, Memory.read s.buf (o + j) = some b ∧ s.cfg.marker[j]? = some b
    ∃ r, exec (.findMarker origin) s = .next { s with micro := some (.marker r) } ∧
      (∀ o, r = some o ↔ origin ≤ o ∧ matchesAt o ∧ ∀ x, origin ≤ x → x < o → ¬ matchesAt x) ∧
      (r = none ↔ ∀ o, origin ≤ o → ¬ matchesAt o)

/-- 20_memory.md R51: the search does not depend on the bytes at or above `occ`. -/
def Obligations.SearchIgnoresUnoccupiedBytes : Prop :=
  ∀ (s t : State) (origin : Nat), s.cfg = t.cfg → s.occ = t.occ →
    (∀ a, a < s.occ → Memory.read s.buf a = Memory.read t.buf a) → findMarker origin s = findMarker origin t

/-- 41_synchronizer.md R122 to R127: COMPUTE_RANGE by the outcome of its two searches; the sentinel `-1` survives
renormalisation. -/
def Obligations.ComputeRangeOutcomes : Prop :=
  ∀ s : State,
    (findMarker 0 s = none → exec .computeRange s = .next { s with micro := some (.range ⟨.nosync, ⟨-1, -1⟩, false⟩) }) ∧
    (∀ st, findMarker 0 s = some st → ∃ b,
      (∀ i, i < s.occ - st → Memory.read b i = Memory.read s.buf (st + i)) ∧ (st = 0 → b = s.buf) ∧
      (findMarker (st + s.cfg.markerLength) s = none → exec .computeRange s = .next { s with
        buf := b, occ := s.occ - st, micro := some (.range ⟨.incomplete, ⟨0, -1⟩, decide (0 < st)⟩) }) ∧
      (∀ en, findMarker (st + s.cfg.markerLength) s = some en → exec .computeRange s = .next { s with
        buf := b, occ := s.occ - st,
        micro := some (.range ⟨.valid, ⟨0, (en : Int) - (st : Int)⟩, decide (0 < st)⟩) }))

/-- 41_synchronizer.md R129, R133: on every result of COMPUTE_RANGE, VALIDATE is true exactly when the classification is VALID,
and then `L <= end <= occ - L <= C - L`. -/
def Obligations.ValidRangeExactlyWhenValidated : Prop :=
  ∀ (s t : State) (r : RangeResult), configLegal s.cfg = true → BufferExact s → s.occ ≤ s.cfg.capacity →
    computeRange s = .ok (r, t) →
    (validate s.cfg.capacity r.range = true ↔ r.cls = .valid) ∧
    (r.cls = .valid → r.range.first = 0 ∧ (s.cfg.markerLength : Int) ≤ r.range.last ∧
      r.range.last + s.cfg.markerLength ≤ t.occ ∧ t.occ ≤ s.cfg.capacity)

/-- 41_synchronizer.md R128: VALIDATE is the source's predicate on integers, and writes nothing else. -/
def Obligations.ValidateIsThePredicate : Prop :=
  ∀ (s : State) (first last : Int), ∃ b : Bool, exec (.validate first last) s = .next { s with micro := some (.valid b) } ∧
    (b = true ↔ 0 ≤ first ∧ first < last ∧ last - first ≤ s.cfg.capacity)

/-! ### DISPATCH and the decoder -/

/-- 42_driver_commands.md R148: DISPATCH presents `(0, e)` with a copy of `buf[0 .. e)` and changes nothing else; the answer then
is OK for code 0, recoverable for 1, fatal for 2 and 3. -/
def Obligations.DispatchPresentsFrameAndReturnsAnswer : Prop :=
  (∀ (s : State) (e : Nat), BufferExact s → e ≤ s.occ → ∃ frame,
    exec (.dispatch e) s = .next { s with
      decReq := some e, requests := s.requests ++ [⟨0, BitVec.ofNat 32 e, frame⟩], micro := none } ∧
    frame.length = e ∧ ∀ i, i < e → frame[i]? = Memory.read s.buf i) ∧
  (∀ (s : State) (e : Nat) (code : BitVec 2) (rest : List Input), configLegal s.cfg = true → nextCommand s = none →
    s.decReq = some e → s.push = none → s.inputs = .decoderResponse code :: rest →
    ∃ r, step s = .next { s with inputs := rest, decReq := none, micro := some (.decoded r) } ∧
      (r = .ok ↔ code = 0) ∧ (r = .recoverable ↔ code = 1) ∧ (r = .fatal ↔ code = 2 ∨ code = 3))

/-- 20_memory.md R65: MemRead outside `[0, occ)` faults, so DISPATCH of more than is occupied does. -/
def Obligations.DispatchBeyondOccupiedFaults : Prop :=
  ∀ (s : State) (e : Nat), s.occ < e → exec (.dispatch e) s = .fault (.readOutOfBounds 0 e)

/-- 42_driver_commands.md R151, 60_exceptions.md R187: the fatal stop, for code 2 and for the reserved code 3; `frames` and the
requests stay, and a PUSH without another START is then a CMD_ERR. -/
def Obligations.FatalAnswerStops : Prop :=
  ∀ (s : State) (e : Nat) (c : PushLoop) (code : BitVec 2) (rest : List Input), configLegal s.cfg = true → s.seq = .busy →
    s.decReq = some e → s.push = some c → s.inputs = .decoderResponse code :: rest → 2 ≤ code.toNat →
    ∃ b t, step s = .next t ∧ t = { s with
        inputs := rest, decReq := none, push := none, life := .stopped, occ := 0, buf := b,
        events := s.events ||| 0x08, eventPort := s.eventPort ++ [⟨.dfatal, BitVec.ofNat 32 e⟩],
        responses := s.responses ++ [⟨.fatal, BitVec.ofNat 32 c.k⟩], seq := .ready, din := [] } ∧
      ∀ n, ∃ u, exec (.push n) t = .next u ∧ u.responses = t.responses ++ [⟨.cmdErr, 0⟩] ∧ u.life = .stopped

/-- 42_driver_commands.md R149, R150: an OK or recoverable answer evicts the frame and counts it, saturating; a recoverable one
raises DERR with info `e`, an OK one raises nothing; then the PUSH responds `OK, k` or presents the next frame. -/
def Obligations.FrameAnswerEvictsAndCounts : Prop :=
  ∀ (s : State) (e : Nat) (c : PushLoop) (code : BitVec 2) (rest : List Input), Inv s → s.seq = .busy →
    s.decReq = some e → s.push = some c → s.inputs = .decoderResponse code :: rest → code.toNat < 2 →
    ∃ t, step s = .next t ∧
      t.occ = s.occ - e ∧ (∀ i, i < s.occ - e → Memory.read t.buf i = Memory.read s.buf (e + i)) ∧
      t.frames = (if s.frames = 0xFFFFFFFF then s.frames else s.frames + 1) ∧
      (code = 0 → t.events = s.events ∧ t.eventPort = s.eventPort) ∧
      (code = 1 → t.events = s.events ||| 0x04 ∧ t.eventPort = s.eventPort ++ [⟨.derr, BitVec.ofNat 32 e⟩]) ∧
      t.life = s.life ∧ t.cfg = s.cfg ∧ t.cmdPort = s.cmdPort ∧ t.inputs = rest ∧
      ((t.seq = .ready ∧ t.decReq = none ∧ t.requests = s.requests ∧
          t.responses = s.responses ++ [⟨.ok, BitVec.ofNat 32 c.k⟩]) ∨
       (t.seq = .busy ∧ t.responses = s.responses ∧ ∃ e' frame, t.decReq = some e' ∧
          t.requests = s.requests ++ [⟨0, BitVec.ofNat 32 e', frame⟩]))

/-- 42_driver_commands.md R147, the source's "no stale marker is reprocessed twice": after a frame is evicted the buffer begins
with the marker that ended it. -/
def Obligations.NoStaleMarkerAfterFrame : Prop :=
  ∀ (s t : State) (code : BitVec 2) (rest : List Input), Inv s → s.seq = .busy → s.inputs = .decoderResponse code :: rest →
    code.toNat < 2 → step s = .next t → markerAt 0 t = true ∧ t.cfg.markerLength ≤ t.occ

/-- 10_state.md R30: while a request is outstanding nothing but the answer or a hardware reset changes the buffer, `occ` or the
request. -/
def Obligations.PendingFrameIsFrozen : Prop :=
  ∀ s t : State, s.seq = .busy → step s = .next t →
    (∀ code rest, s.inputs ≠ .decoderResponse code :: rest) → (∀ rest, s.inputs ≠ .hardwareReset :: rest) →
    t.buf = s.buf ∧ t.occ = s.occ ∧ t.decReq = s.decReq ∧ t.push = s.push ∧ t.seq = .busy ∧ t.requests = s.requests ∧
      t.responses = s.responses ∧ t.eventPort = s.eventPort ∧ t.life = s.life ∧ t.frames = s.frames ∧ t.events = s.events ∧
      t.din = s.din

/-- 20_memory.md R61, 70_reset_and_hazards.md R206: a decoder read below `dec_end` of the outstanding request returns the frame's
byte; every other read returns some byte, a free value (log entry 6); no read changes the block. -/
def Obligations.DecoderReadReturnsFrameByte : Prop :=
  ∀ (s : State) (addr : Word) (rest : List Input), Inv s → nextCommand s = none → s.inputs = .decoderRead addr :: rest →
    ∃ b, step s = .next { s with inputs := rest, decReads := s.decReads ++ [b], draws := s.draws + 1 } ∧
      ∀ e, s.decReq = some e → addr.toNat < e → Memory.read s.buf addr.toNat = some b

/-! ### PUSH -/

/-- 42_driver_commands.md R145, R152: a PUSH that leaves no complete frame and room in the buffer takes `n = min(N, C - occ)`
bytes, evicts a garbage prefix without an event, and responds `OK, n`.  Payload bytes the host does not list are free values
(log entry 5). -/
def Obligations.PushRespondsWhileIncomplete : Prop :=
  ∀ (s : State) (N : BitVec 16), configLegal s.cfg = true → BufferExact s → s.occ ≤ s.cfg.capacity → s.life = .active →
    let d := pushPayload N.toNat s
    let n := min N.toNat (s.cfg.capacity - s.occ)
    let w := window s ++ d.take n
    let s1 : State := { s with buf := Memory.ofBytes 0 w, occ := s.occ + n, din := [], draws := s.draws + (N.toNat - s.din.length) }
    (findMarker 0 s1 = none → s1.occ < s.cfg.capacity →
      exec (.push N) s = .next { s1 with
        responses := s.responses ++ [⟨.ok, BitVec.ofNat 32 n⟩], seq := .ready, push := none }) ∧
    (∀ st, findMarker 0 s1 = some st → findMarker (st + s.cfg.markerLength) s1 = none → s1.occ - st < s.cfg.capacity →
      exec (.push N) s = .next { s1 with
        buf := Memory.ofBytes 0 (w.drop st), occ := s1.occ - st,
        responses := s.responses ++ [⟨.ok, BitVec.ofNat 32 n⟩], seq := .ready, push := none })

/-- 42_driver_commands.md R145, R147: a PUSH after whose first APPEND a whole frame is buffered presents it to the decoder, with
its leading marker and without the next, and waits; the untaken payload stays on the data-in port. -/
def Obligations.PushDispatchesWholeFrame : Prop :=
  ∀ (s : State) (N : BitVec 16) (st en : Nat), configLegal s.cfg = true → BufferExact s → s.occ ≤ s.cfg.capacity →
    s.life = .active →
    let d := pushPayload N.toNat s
    let n := min N.toNat (s.cfg.capacity - s.occ)
    let w := window s ++ d.take n
    let s1 : State := { s with
      buf := Memory.ofBytes 0 w, occ := s.occ + n, din := d.drop n, draws := s.draws + (N.toNat - s.din.length) }
    findMarker 0 s1 = some st → findMarker (st + s.cfg.markerLength) s1 = some en →
      exec (.push N) s = .next { s1 with
        buf := Memory.ofBytes 0 (w.drop st), occ := s1.occ - st, decReq := some (en - st),
        requests := s.requests ++ [⟨0, BitVec.ofNat 32 (en - st), (w.drop st).take (en - st)⟩],
        push := some ⟨n, 0, decide (0 < n ∨ 0 < st)⟩ }

/-- 42_driver_commands.md R153, R162, 41_synchronizer.md R130: a PUSH that fills the buffer with no marker, or with a marker at 0
and no second one, resets the buffer once, raises GARB or OVERSIZE with info `C`, and goes on with the next outer pass from an
empty buffer; with no payload left it responds `OK, n`. -/
def Obligations.FullBufferIsResetOnce : Prop :=
  ∀ (s : State) (N : BitVec 16), configLegal s.cfg = true → BufferExact s → s.occ ≤ s.cfg.capacity → s.life = .active →
    s.cfg.capacity ≤ s.occ + N.toNat →
    let d := pushPayload N.toNat s
    let n := s.cfg.capacity - s.occ
    let w := window s ++ d.take n
    let s1 : State := { s with
      buf := Memory.ofBytes 0 w, occ := s.occ + n, din := d.drop n, draws := s.draws + (N.toNat - s.din.length) }
    ∀ g bit, ((g, bit) = (Event.garb, (0x01 : BitVec 8)) ∧ findMarker 0 s1 = none) ∨
        ((g, bit) = (Event.oversize, (0x02 : BitVec 8)) ∧ findMarker 0 s1 = some 0 ∧ findMarker s.cfg.markerLength s1 = none) →
      ∃ b, let s2 : State := { s1 with
          buf := b, occ := 0, events := s.events ||| bit,
          eventPort := s.eventPort ++ [⟨g, BitVec.ofNat 32 s.cfg.capacity⟩] }
        exec (.push N) s = outerLoop (N.toNat + 1) n 0 s2 ∧
        (N.toNat = n → exec (.push N) s = .next { s2 with
          responses := s.responses ++ [⟨.ok, BitVec.ofNat 32 n⟩], seq := .ready, din := [], push := none })

/-- 42_driver_commands.md R144, the corner case `N = 0`: between commands it changes nothing but the response. -/
def Obligations.EmptyPushChangesNothing : Prop :=
  ∀ (s : State) (c : HostCommand) (rest : List HostCommand), Inv s → s.seq = .ready → s.life = .active →
    s.cmdPort = c :: rest → decode c.word = .push 0 →
    step s = .next { s with cmdPort := rest, din := [], responses := s.responses ++ [⟨.ok, 0⟩] }

/-- 42_driver_commands.md R156: a PUSH of at least one byte in `Active` takes at least one, and never more than `N`. -/
def Obligations.PushTakesAtLeastOneByte : Prop :=
  ∀ (s : State) (c : HostCommand) (rest : List HostCommand) (N : BitVec 16), Inv s → s.seq = .ready → s.life = .active →
    s.cmdPort = c :: rest → decode c.word = .push N → 1 ≤ N.toNat →
    ∃ t k, step s = .next t ∧ 1 ≤ k ∧ k ≤ N.toNat ∧
      ((t.seq = .ready ∧ t.responses = s.responses ++ [⟨.ok, BitVec.ofNat 32 k⟩]) ∨
       (t.seq = .busy ∧ t.responses = s.responses ∧ ∃ nop prog, t.push = some ⟨k, nop, prog⟩))

/-- 42_driver_commands.md R154 as written: on the second consecutive pass without progress the buffer is reset, NOPROG is raised
with the `occ` before, and the PUSH responds `OK, k`; on the first, and after progress, it goes on. -/
def Obligations.NoProgressGuard : Prop :=
  ∀ (s : State) (k nop : Nat),
    (nop + 1 = 2 → ∃ b, progressGuard false k nop s = .done (.next { s with
      buf := b, occ := 0, events := s.events ||| 0x40, eventPort := s.eventPort ++ [⟨.noprog, BitVec.ofNat 32 s.occ⟩],
      responses := s.responses ++ [⟨.ok, BitVec.ofNat 32 k⟩], seq := .ready, din := [], push := none })) ∧
    (nop + 1 ≠ 2 → progressGuard false k nop s = .again k (nop + 1) s) ∧
    progressGuard true k nop s = .again k 0 s

/-- 42_driver_commands.md R154, reachability: no step from any state emits a NOPROG record. -/
def Obligations.NoProgressNeverReported : Prop :=
  ∀ s t : State, step s = .next t →
    t.eventPort.filter (fun r => r.event == .noprog) = s.eventPort.filter (fun r => r.event == .noprog) ∨ t.eventPort = []

/-! ### Whole transactions -/

/-- 42_driver_commands.md R140 item 4, 30_encoding.md R77, 60_exceptions.md R183: a command run to its end has produced exactly
one response, and its status is the one its events name. -/
def Obligations.OneResponseWithItsStatus : Prop :=
  ∀ (s t : State) (c : HostCommand) (codes rest : List (BitVec 2)), Inv s → s.seq = .ready → s.cmdPort = [] →
    transact c codes s = some (t, rest) →
    t.seq = .ready ∧ ∃ r gs, t.responses = s.responses ++ [r] ∧ t.eventPort = s.eventPort ++ gs ∧
      (r.status = .cmdErr ↔ ∃ g ∈ gs, g.event = .cmderr) ∧
      (r.status = .initErr ↔ ∃ g ∈ gs, g.event = .initerr) ∧
      (r.status = .fatal ↔ ∃ g ∈ gs, g.event = .dfatal)

/-- 42_driver_commands.md R155: the three ways a PUSH ends. -/
def Obligations.PushEndsInOneOfThreeWays : Prop :=
  ∀ (s t : State) (c : HostCommand) (N : BitVec 16) (codes rest : List (BitVec 2)), Inv s → s.seq = .ready → s.cmdPort = [] →
    decode c.word = .push N → transact c codes s = some (t, rest) →
    ∃ r, t.responses = s.responses ++ [r] ∧
      ((r.status = .ok ∧ r.data.toNat ≤ N.toNat ∧ s.life = .active ∧ t.life = .active ∧ t.occ < t.cfg.capacity) ∨
       (r.status = .fatal ∧ r.data.toNat ≤ N.toNat ∧ s.life = .active ∧ t.life = .stopped ∧ t.occ = 0) ∨
       (r = ⟨.cmdErr, 0⟩ ∧ s.life ≠ .active ∧ t = { s with
          events := s.events ||| 0x20, eventPort := s.eventPort ++ [⟨.cmderr, c.word⟩], responses := s.responses ++ [r],
          din := [] }))

/-- 42_driver_commands.md R157: a PUSH of `N` bytes on `occ` buffered ones ends once `(occ + N) / L` answers are there, after at
most `(occ + N) / L` dispatches and `(occ + N) / C` garbage resets. -/
def Obligations.PushDoesBoundedWork : Prop :=
  ∀ (s : State) (c : HostCommand) (N : BitVec 16) (codes : List (BitVec 2)), Inv s → s.seq = .ready → s.life = .active →
    s.cmdPort = [] → decode c.word = .push N → (s.occ + N.toNat) / s.cfg.markerLength ≤ codes.length →
    ∃ t rest ds gs, transact c codes s = some (t, rest) ∧ t.seq = .ready ∧ t.requests = s.requests ++ ds ∧ t.eventPort = s.eventPort ++ gs ∧
      ds.length ≤ (s.occ + N.toNat) / s.cfg.markerLength ∧
      (gs.filter fun g => g.event == .garb || g.event == .oversize).length ≤ (s.occ + N.toNat) / s.cfg.capacity

/-- 42_driver_commands.md R161: chunk-size independence.  One stream fed in any two chunkings, remainders re-pushed, the decoder
giving the same answer to the n-th dispatch: the same dispatches, the same event records and the same final buffer. -/
def Obligations.ChunkSizeIndependence : Prop :=
  ∀ (s : State) (cs ds : List (List Byte)) (codes : List (BitVec 2)), Inv s → s.seq = .ready → s.life = .active →
    s.cmdPort = [] → cs.flatten = ds.flatten → s.occ + cs.flatten.length ≤ codes.length →
    ∃ t u restT restU, feedChunks cs codes s = some (t, restT) ∧ feedChunks ds codes s = some (u, restU) ∧
      t.requests = u.requests ∧ t.eventPort = u.eventPort ∧ t.occ = u.occ ∧ t.buf = u.buf ∧ t.life = u.life ∧
      t.frames = u.frames ∧ t.events = u.events

/-! ### Reset -/

/-- 70_reset_and_hazards.md R200, 10_state.md R41: hardware reset at any moment the environment may act, a PUSH with a dispatch
pending included; the decoder's later answer to the withdrawn request is ignored.  That the presented commands stay, and that a
late answer is an act of its own, is the model's reading (log entries 9 and 16). -/
def Obligations.HardwareResetResult : Prop :=
  (∀ (s : State) (rest : List Input), configLegal s.cfg = true → nextCommand s = none → s.inputs = .hardwareReset :: rest →
    ∃ t, step s = .next t ∧ t.life = .idle ∧ t.occ = 0 ∧ t.frames = 0 ∧ t.events = 0 ∧ t.seq = .ready ∧
      t.push = none ∧ t.decReq = none ∧ t.din = [] ∧ t.responses = [] ∧ t.eventPort = [] ∧ t.requests = [] ∧ t.decReads = [] ∧
      t.cfg = s.cfg ∧ t.cmdPort = s.cmdPort ∧ t.inputs = rest) ∧
  (∀ (s : State) (code : BitVec 2) (rest : List Input), configLegal s.cfg = true → nextCommand s = none →
    s.inputs = .lateDecoderResponse code :: rest → step s = .next { s with inputs := rest })

/-- The state after reset meets the invariants, under every legal configuration; that of `State.reset` is the model's choice (log
entry 2). -/
def Obligations.ResetMeetsInvariant : Prop :=
  (∀ c : Config, configLegal c = true → Inv (State.resetWith c) ∧ Framed (State.resetWith c)) ∧ Inv State.reset

/-! ### Invariants and whole-machine rules -/

/-- Every step keeps the invariant (10_state.md R25, R26, R30, R42). -/
def Obligations.StepKeepsInvariant : Prop :=
  ∀ s t : State, Inv s → step s = .next t → Inv t

/-- From a state that meets the invariant no step faults and none is refused (20_memory.md R65, 40_buffer_manager.md R103). -/
def Obligations.StepNeverStops : Prop :=
  ∀ s : State, Inv s → ∃ t, step s = .next t

/-- Every frame ever handed to the decoder begins with the marker and is `L` to `C - L` bytes long, and the outstanding one is
the front of the buffer (41_synchronizer.md R124, R132, R133; 20_memory.md R61). -/
def Obligations.StepKeepsFramesWhole : Prop :=
  ∀ s t : State, Inv s → Framed s → step s = .next t → Framed t

/-- Every step keeps the buffer in its canonical form, from any state whatever.  The form is the model's choice (log entry 8). -/
def Obligations.StepKeepsCanonicalMemory : Prop :=
  ∀ s t : State, Memory.wf s.buf = true → step s = .next t → Memory.wf t.buf = true

/-- 00_scope.md R6: no step changes the configuration, which the model holds in State (log entry 1). -/
def Obligations.ConfigurationIsConstant : Prop :=
  ∀ s t : State, step s = .next t → t.cfg = s.cfg

/-- 10_state.md R40: an EVENTS bit stays set until an ACK names it, or a hardware reset. -/
def Obligations.EventBitsAreSticky : Prop :=
  ∀ (s t : State) (i : Nat), step s = .next t → s.events.getLsbD i = true →
    t.events.getLsbD i = true ∨
    (∃ c rest mask, s.seq = .ready ∧ s.cmdPort = c :: rest ∧ decode c.word = .ack mask ∧ mask.getLsbD i = true ∧ i < 7) ∨
    (∃ rest, nextCommand s = none ∧ s.inputs = .hardwareReset :: rest)

/-- 10_state.md R27: `frames` changes only by a saturating increment on an OK or recoverable answer to a PUSH's dispatch, and by
hardware reset, which sets it to 0. -/
def Obligations.FramesCountsAnsweredDispatches : Prop :=
  ∀ s t : State, step s = .next t →
    t.frames = s.frames ∨
    (t.frames = s.frames + 1 ∧ s.frames ≠ 0xFFFFFFFF ∧ s.decReq.isSome = true ∧ s.push.isSome = true ∧
      ∃ code rest, s.inputs = .decoderResponse code :: rest ∧ code.toNat < 2) ∨
    (t.frames = 0 ∧ ∃ rest, s.inputs = .hardwareReset :: rest)

/-- 10_state.md R22: the codes of `life`, and its only writers: START, STOP, a fatal decoder response inside PUSH, and hardware
reset. -/
def Obligations.LifeHasFourWriters : Prop :=
  (lifeCode .idle = 0 ∧ lifeCode .active = 1 ∧ lifeCode .stopped = 2 ∧ ∀ l, lifeCode l ≠ 3) ∧
  ∀ s t : State, step s = .next t →
    t.life = s.life ∨
    (∃ c rest, s.seq = .ready ∧ s.cmdPort = c :: rest ∧ (decode c.word = .start ∨ decode c.word = .stop)) ∨
    (t.life = .stopped ∧ s.push.isSome = true ∧ s.decReq.isSome = true ∧
      ∃ code rest, s.inputs = .decoderResponse code :: rest ∧ 2 ≤ code.toNat) ∨
    (t.life = .idle ∧ ∃ rest, s.inputs = .hardwareReset :: rest)

/-- The source's occupancy bound (10_state.md R24, 40_buffer_manager.md R106) as the host reads it: OCC never exceeds CAP, and a
block that is not Active reads OCC as 0. -/
def Obligations.OccReadsAtMostCap : Prop :=
  ∀ s : State, Inv s → ∃ t u a b, exec (.rdreg 1) s = .next t ∧ exec (.rdreg 4) s = .next u ∧
    t.responses = s.responses ++ [⟨.ok, a⟩] ∧ u.responses = s.responses ++ [⟨.ok, b⟩] ∧ a.toNat ≤ b.toNat ∧
    b.toNat = s.cfg.capacity ∧ (s.life ≠ .active → a = 0)
end

