-- ==== Sys2Proof/Laws/Memory.lean ====
section
/-! SUPPORT. The buffer as memory: read after write, the canonical form, and the consecutive bytes of `Memory.ofBytes`. -/

namespace Sys2Proof.Machine

namespace Memory

/-! ### Read after write -/

theorem read_write_same (m : Memory) (a : Nat) (b : Byte) : read (write m a b) a = some b := by
  induction m with
  | nil => simp [write, read]
  | cons c m ih =>
    obtain ⟨x, v⟩ := c
    simp only [write]
    split
    · simp [read]
    · split
      · simp [read]
      · rename_i _ hne
        have : x ≠ a := fun h => hne h.symm
        simp [read, this, ih]

theorem read_write_other (m : Memory) {a a' : Nat} (b : Byte) (h : a' ≠ a) : read (write m a b) a' = read m a' := by
  induction m with
  | nil => simp [write, read, h.symm]
  | cons c m ih =>
    obtain ⟨x, v⟩ := c
    simp only [write]
    split
    · simp [read, h.symm]
    · split
      · rename_i _ heq
        subst heq
        simp [read, h.symm]
      · simp [read, ih]

/-! ### The canonical form -/

/-- Every offset listed in `m` lies above `a`. -/
def Above (a : Nat) (m : Memory) : Prop := ∀ c ∈ m, a < c.1

theorem wf_cons (c : Host.Cell) (m : Memory) : wf (c :: m) = true ↔ Above c.1 m ∧ wf m = true := by
  induction m generalizing c with
  | nil => simp [wf, Above]
  | cons d m ih =>
    simp only [wf, Bool.and_eq_true, decide_eq_true_eq, ih d, Above, List.mem_cons, forall_eq_or_imp]
    constructor
    · rintro ⟨h, ha, hw⟩
      exact ⟨⟨h, fun e he => h.trans (ha e he)⟩, ha, hw⟩
    · rintro ⟨⟨h, _⟩, ha, hw⟩
      exact ⟨h, ha, hw⟩

theorem above_write {m : Memory} {x a : Nat} {b : Byte} (hm : Above x m) (h : x < a) : Above x (write m a b) := by
  induction m with
  | nil => simpa [Above, write] using h
  | cons c m ih =>
    obtain ⟨y, v⟩ := c
    have hm' : Above x m := fun d hd => hm d (List.mem_cons_of_mem _ hd)
    have hy : x < y := hm (y, v) (List.mem_cons_self ..)
    have hc : ∀ {n : Memory} {z : Nat} {u : Byte}, x < z → Above x n → Above x ((z, u) :: n) := by
      intro n z u hz hn d hd
      rcases List.mem_cons.mp hd with rfl | hd
      · exact hz
      · exact hn d hd
    simp only [write]
    split
    · exact hc h (hc hy hm')
    · split
      · exact hc h hm'
      · exact hc hy (ih hm')

theorem wf_write {m : Memory} (hm : wf m = true) (a : Nat) (b : Byte) : wf (write m a b) = true := by
  induction m with
  | nil => simp [write, wf]
  | cons c m ih =>
    obtain ⟨x, v⟩ := c
    obtain ⟨ha, hw⟩ := (wf_cons _ _).mp hm
    simp only [write]
    split
    · rename_i h
      refine (wf_cons _ _).mpr ⟨?_, hm⟩
      intro d hd
      rcases List.mem_cons.mp hd with rfl | hd
      · exact h
      · exact h.trans (ha d hd)
    · split
      · rename_i heq
        subst heq
        exact (wf_cons _ _).mpr ⟨ha, hw⟩
      · exact (wf_cons _ _).mpr ⟨above_write ha (by dsimp only; omega), ih hw⟩

theorem wf_writeList {m : Memory} (hm : wf m = true) (a : Nat) (v : List Byte) : wf (writeList m a v) = true := by
  induction v generalizing m a with
  | nil => exact hm
  | cons b v ih => exact ih (wf_write hm a b) (a + 1)

theorem wf_shift {m : Memory} (hm : wf m = true) (off occ : Nat) : wf (shift m off occ) = true := by
  induction m with
  | nil => simp [shift, wf]
  | cons c m ih =>
    obtain ⟨ha, hw⟩ := (wf_cons _ _).mp hm
    have ih := ih hw
    simp only [shift, List.filter_cons] at ih ⊢
    split
    · rename_i hc
      simp only [Bool.and_eq_true, decide_eq_true_eq] at hc
      rw [List.map_cons]
      refine (wf_cons _ _).mpr ⟨?_, ih⟩
      intro d hd
      obtain ⟨e, he, rfl⟩ := List.mem_map.mp hd
      obtain ⟨hem, hec⟩ := List.mem_filter.mp he
      simp only [Bool.and_eq_true, decide_eq_true_eq] at hec
      have := ha e hem
      dsimp only
      omega
    · exact ih

/-! ### Consecutive bytes -/

@[simp] theorem length_ofBytes (a : Nat) (w : List Byte) : (ofBytes a w).length = w.length := by
  induction w generalizing a with
  | nil => rfl
  | cons b w ih => simp [ofBytes, ih]

@[simp] theorem map_snd_ofBytes (a : Nat) (w : List Byte) : (ofBytes a w).map Prod.snd = w := by
  induction w generalizing a with
  | nil => rfl
  | cons b w ih => simp [ofBytes, ih]

theorem le_of_mem_ofBytes {a : Nat} {w : List Byte} {c : Host.Cell} (h : c ∈ ofBytes a w) :
    a ≤ c.1 ∧ c.1 < a + w.length := by
  induction w generalizing a with
  | nil => simp [ofBytes] at h
  | cons b w ih =>
    rcases List.mem_cons.mp h with rfl | h
    · simp
    · have := ih h
      simp only [List.length_cons]
      omega

theorem wf_ofBytes (a : Nat) (w : List Byte) : wf (ofBytes a w) = true := by
  induction w generalizing a with
  | nil => rfl
  | cons b w ih =>
    refine (wf_cons _ _).mpr ⟨?_, ih (a + 1)⟩
    intro c hc
    have := (le_of_mem_ofBytes hc).1
    dsimp only
    omega

theorem read_ofBytes (a : Nat) (w : List Byte) (x : Nat) :
    read (ofBytes a w) x = if a ≤ x then w[x - a]? else none := by
  induction w generalizing a with
  | nil => simp [ofBytes, read]
  | cons b w ih =>
    simp only [ofBytes, read, ih]
    by_cases h : a = x
    · simp [h]
    · by_cases h' : a ≤ x
      · have e : x - a = (x - (a + 1)) + 1 := by omega
        have h'' : a + 1 ≤ x := by omega
        rw [if_neg h, if_pos h'', if_pos h', e, List.getElem?_cons_succ]
      · have h'' : ¬ a + 1 ≤ x := by omega
        rw [if_neg h, if_neg h'', if_neg h']

@[simp] theorem read_ofBytes_zero (w : List Byte) (x : Nat) : read (ofBytes 0 w) x = w[x]? := by
  simp [read_ofBytes]

theorem write_ofBytes_end (a : Nat) (w : List Byte) (b : Byte) :
    write (ofBytes a w) (a + w.length) b = ofBytes a (w ++ [b]) := by
  induction w generalizing a with
  | nil => simp [ofBytes, write]
  | cons c w ih =>
    have h := ih (a + 1)
    have e : a + (c :: w).length = a + 1 + w.length := by simp only [List.length_cons]; omega
    have h1 : ¬ a + 1 + w.length < a := by omega
    have h2 : ¬ a + 1 + w.length = a := by omega
    simp only [ofBytes, List.cons_append, write, e, if_neg h1, if_neg h2, h]

theorem writeList_ofBytes_end (a : Nat) (w v : List Byte) :
    writeList (ofBytes a w) (a + w.length) v = ofBytes a (w ++ v) := by
  induction v generalizing w with
  | nil => simp [writeList]
  | cons b v ih =>
    have h := ih (w ++ [b])
    simp only [List.length_append, List.length_cons, List.length_nil, List.append_assoc, List.cons_append,
      List.nil_append] at h
    simp only [writeList, write_ofBytes_end]
    rw [← h]
    rfl

theorem readList_ofBytes {a n : Nat} {w : List Byte} (h : a + n ≤ w.length) :
    readList (ofBytes 0 w) a n = some ((w.drop a).take n) := by
  induction n generalizing a with
  | zero => simp [readList]
  | succ n ih =>
    have ha : a < w.length := by omega
    simp only [readList, read_ofBytes_zero, List.getElem?_eq_getElem ha, ih (a := a + 1) (by omega)]
    rw [List.drop_eq_getElem_cons ha, List.take_succ_cons]

theorem shift_ofBytes_from (a off k : Nat) (w : List Byte) (h : a ≤ off) :
    shift (ofBytes a w) off (a + w.length + k) = ofBytes 0 (w.drop (off - a)) := by
  induction w generalizing a with
  | nil => simp [shift, ofBytes]
  | cons b w ih =>
    have hlen : a + (b :: w).length + k = a + 1 + w.length + k := by simp only [List.length_cons]; omega
    by_cases hao : a = off
    · subst hao
      have key : ∀ (i : Nat) (v : List Byte) (n : Nat), a ≤ i → i + v.length ≤ n →
          shift (ofBytes i v) a n = ofBytes (i - a) v := by
        intro i v n hi hn
        induction v generalizing i with
        | nil => rfl
        | cons c v ihv =>
          simp only [List.length_cons] at hn
          have hc : (decide (a ≤ i) && decide (i < n)) = true := by
            simp only [Bool.and_eq_true, decide_eq_true_eq]; omega
          have := ihv (i + 1) (by omega) (by omega)
          simp only [shift] at this ⊢
          simp only [ofBytes, List.filter_cons, hc, if_true, List.map_cons, this]
          rw [show i + 1 - a = i - a + 1 by omega]
      rw [key a (b :: w) _ (le_refl a) (by omega)]
      simp
    · have hlt : a < off := by omega
      have hc : ¬ (off ≤ a ∧ a < a + 1 + w.length + k) := by omega
      have := ih (a + 1) (by omega)
      simp only [shift] at this ⊢
      rw [show off - a = (off - (a + 1)) + 1 by omega, List.drop_succ_cons, ← this]
      simp only [ofBytes, List.filter_cons, Bool.and_eq_true, decide_eq_true_eq, if_neg hc, hlen]

theorem shift_ofBytes (off : Nat) (w : List Byte) :
    shift (ofBytes 0 w) off w.length = ofBytes 0 (w.drop off) := by
  simpa using shift_ofBytes_from 0 off 0 w (Nat.zero_le _)

end Memory

end Sys2Proof.Machine
end

