-- ==== Sys2Proof/Laws/State.lean ====
section
/-! SUPPORT. One lemma per field per shared update of `State`, so that no later proof unfolds a record update. -/

namespace Sys2Proof.Machine

@[simp] theorem respond_cfg (r : Status) (x : Word) (s : State) : (respond r x s).cfg = s.cfg := rfl
@[simp] theorem respond_life (r : Status) (x : Word) (s : State) : (respond r x s).life = s.life := rfl
@[simp] theorem respond_buf (r : Status) (x : Word) (s : State) : (respond r x s).buf = s.buf := rfl
@[simp] theorem respond_occ (r : Status) (x : Word) (s : State) : (respond r x s).occ = s.occ := rfl
@[simp] theorem respond_frames (r : Status) (x : Word) (s : State) : (respond r x s).frames = s.frames := rfl
@[simp] theorem respond_events (r : Status) (x : Word) (s : State) : (respond r x s).events = s.events := rfl
@[simp] theorem respond_seq (r : Status) (x : Word) (s : State) : (respond r x s).seq = .ready := rfl
@[simp] theorem respond_push (r : Status) (x : Word) (s : State) : (respond r x s).push = none := rfl
@[simp] theorem respond_decReq (r : Status) (x : Word) (s : State) : (respond r x s).decReq = s.decReq := rfl
@[simp] theorem respond_din (r : Status) (x : Word) (s : State) : (respond r x s).din = [] := rfl
@[simp] theorem respond_cmdPort (r : Status) (x : Word) (s : State) : (respond r x s).cmdPort = s.cmdPort := rfl
@[simp] theorem respond_responses (r : Status) (x : Word) (s : State) : (respond r x s).responses = s.responses ++ [⟨r, x⟩] := rfl
@[simp] theorem respond_eventPort (r : Status) (x : Word) (s : State) : (respond r x s).eventPort = s.eventPort := rfl
@[simp] theorem respond_requests (r : Status) (x : Word) (s : State) : (respond r x s).requests = s.requests := rfl
@[simp] theorem respond_decReads (r : Status) (x : Word) (s : State) : (respond r x s).decReads = s.decReads := rfl
@[simp] theorem respond_allocOk (r : Status) (x : Word) (s : State) : (respond r x s).allocOk = s.allocOk := rfl
@[simp] theorem respond_inputs (r : Status) (x : Word) (s : State) : (respond r x s).inputs = s.inputs := rfl
@[simp] theorem respond_micro (r : Status) (x : Word) (s : State) : (respond r x s).micro = s.micro := rfl
@[simp] theorem respond_draws (r : Status) (x : Word) (s : State) : (respond r x s).draws = s.draws := rfl

@[simp] theorem raiseEvent_cfg (e : Event) (x : Word) (s : State) : (raiseEvent e x s).cfg = s.cfg := rfl
@[simp] theorem raiseEvent_life (e : Event) (x : Word) (s : State) : (raiseEvent e x s).life = s.life := rfl
@[simp] theorem raiseEvent_buf (e : Event) (x : Word) (s : State) : (raiseEvent e x s).buf = s.buf := rfl
@[simp] theorem raiseEvent_occ (e : Event) (x : Word) (s : State) : (raiseEvent e x s).occ = s.occ := rfl
@[simp] theorem raiseEvent_frames (e : Event) (x : Word) (s : State) : (raiseEvent e x s).frames = s.frames := rfl
@[simp] theorem raiseEvent_events (e : Event) (x : Word) (s : State) : (raiseEvent e x s).events = s.events ||| eventBit e := rfl
@[simp] theorem raiseEvent_seq (e : Event) (x : Word) (s : State) : (raiseEvent e x s).seq = s.seq := rfl
@[simp] theorem raiseEvent_push (e : Event) (x : Word) (s : State) : (raiseEvent e x s).push = s.push := rfl
@[simp] theorem raiseEvent_decReq (e : Event) (x : Word) (s : State) : (raiseEvent e x s).decReq = s.decReq := rfl
@[simp] theorem raiseEvent_din (e : Event) (x : Word) (s : State) : (raiseEvent e x s).din = s.din := rfl
@[simp] theorem raiseEvent_cmdPort (e : Event) (x : Word) (s : State) : (raiseEvent e x s).cmdPort = s.cmdPort := rfl
@[simp] theorem raiseEvent_responses (e : Event) (x : Word) (s : State) : (raiseEvent e x s).responses = s.responses := rfl
@[simp] theorem raiseEvent_eventPort (e : Event) (x : Word) (s : State) : (raiseEvent e x s).eventPort = s.eventPort ++ [⟨e, x⟩] := rfl
@[simp] theorem raiseEvent_requests (e : Event) (x : Word) (s : State) : (raiseEvent e x s).requests = s.requests := rfl
@[simp] theorem raiseEvent_decReads (e : Event) (x : Word) (s : State) : (raiseEvent e x s).decReads = s.decReads := rfl
@[simp] theorem raiseEvent_allocOk (e : Event) (x : Word) (s : State) : (raiseEvent e x s).allocOk = s.allocOk := rfl
@[simp] theorem raiseEvent_inputs (e : Event) (x : Word) (s : State) : (raiseEvent e x s).inputs = s.inputs := rfl
@[simp] theorem raiseEvent_micro (e : Event) (x : Word) (s : State) : (raiseEvent e x s).micro = s.micro := rfl
@[simp] theorem raiseEvent_draws (e : Event) (x : Word) (s : State) : (raiseEvent e x s).draws = s.draws := rfl

@[simp] theorem emptyBuffer_cfg (s : State) : (emptyBuffer s).cfg = s.cfg := rfl
@[simp] theorem emptyBuffer_life (s : State) : (emptyBuffer s).life = s.life := rfl
@[simp] theorem emptyBuffer_buf (s : State) : (emptyBuffer s).buf = [] := rfl
@[simp] theorem emptyBuffer_occ (s : State) : (emptyBuffer s).occ = 0 := rfl
@[simp] theorem emptyBuffer_frames (s : State) : (emptyBuffer s).frames = s.frames := rfl
@[simp] theorem emptyBuffer_events (s : State) : (emptyBuffer s).events = s.events := rfl
@[simp] theorem emptyBuffer_seq (s : State) : (emptyBuffer s).seq = s.seq := rfl
@[simp] theorem emptyBuffer_push (s : State) : (emptyBuffer s).push = s.push := rfl
@[simp] theorem emptyBuffer_decReq (s : State) : (emptyBuffer s).decReq = s.decReq := rfl
@[simp] theorem emptyBuffer_din (s : State) : (emptyBuffer s).din = s.din := rfl
@[simp] theorem emptyBuffer_cmdPort (s : State) : (emptyBuffer s).cmdPort = s.cmdPort := rfl
@[simp] theorem emptyBuffer_responses (s : State) : (emptyBuffer s).responses = s.responses := rfl
@[simp] theorem emptyBuffer_eventPort (s : State) : (emptyBuffer s).eventPort = s.eventPort := rfl
@[simp] theorem emptyBuffer_requests (s : State) : (emptyBuffer s).requests = s.requests := rfl
@[simp] theorem emptyBuffer_decReads (s : State) : (emptyBuffer s).decReads = s.decReads := rfl
@[simp] theorem emptyBuffer_allocOk (s : State) : (emptyBuffer s).allocOk = s.allocOk := rfl
@[simp] theorem emptyBuffer_inputs (s : State) : (emptyBuffer s).inputs = s.inputs := rfl
@[simp] theorem emptyBuffer_micro (s : State) : (emptyBuffer s).micro = s.micro := rfl
@[simp] theorem emptyBuffer_draws (s : State) : (emptyBuffer s).draws = s.draws := rfl

@[simp] theorem accept_cfg (c : HostCommand) (q : List HostCommand) (s : State) : (accept c q s).cfg = s.cfg := rfl
@[simp] theorem accept_life (c : HostCommand) (q : List HostCommand) (s : State) : (accept c q s).life = s.life := rfl
@[simp] theorem accept_buf (c : HostCommand) (q : List HostCommand) (s : State) : (accept c q s).buf = s.buf := rfl
@[simp] theorem accept_occ (c : HostCommand) (q : List HostCommand) (s : State) : (accept c q s).occ = s.occ := rfl
@[simp] theorem accept_frames (c : HostCommand) (q : List HostCommand) (s : State) : (accept c q s).frames = s.frames := rfl
@[simp] theorem accept_events (c : HostCommand) (q : List HostCommand) (s : State) : (accept c q s).events = s.events := rfl
@[simp] theorem accept_seq (c : HostCommand) (q : List HostCommand) (s : State) : (accept c q s).seq = .busy := rfl
@[simp] theorem accept_push (c : HostCommand) (q : List HostCommand) (s : State) : (accept c q s).push = s.push := rfl
@[simp] theorem accept_decReq (c : HostCommand) (q : List HostCommand) (s : State) : (accept c q s).decReq = s.decReq := rfl
@[simp] theorem accept_din (c : HostCommand) (q : List HostCommand) (s : State) : (accept c q s).din = c.payload := rfl
@[simp] theorem accept_cmdPort (c : HostCommand) (q : List HostCommand) (s : State) : (accept c q s).cmdPort = q := rfl
@[simp] theorem accept_responses (c : HostCommand) (q : List HostCommand) (s : State) : (accept c q s).responses = s.responses := rfl
@[simp] theorem accept_eventPort (c : HostCommand) (q : List HostCommand) (s : State) : (accept c q s).eventPort = s.eventPort := rfl
@[simp] theorem accept_requests (c : HostCommand) (q : List HostCommand) (s : State) : (accept c q s).requests = s.requests := rfl
@[simp] theorem accept_decReads (c : HostCommand) (q : List HostCommand) (s : State) : (accept c q s).decReads = s.decReads := rfl
@[simp] theorem accept_allocOk (c : HostCommand) (q : List HostCommand) (s : State) : (accept c q s).allocOk = s.allocOk := rfl
@[simp] theorem accept_inputs (c : HostCommand) (q : List HostCommand) (s : State) : (accept c q s).inputs = s.inputs := rfl
@[simp] theorem accept_micro (c : HostCommand) (q : List HostCommand) (s : State) : (accept c q s).micro = s.micro := rfl
@[simp] theorem accept_draws (c : HostCommand) (q : List HostCommand) (s : State) : (accept c q s).draws = s.draws := rfl

@[simp] theorem presentPayload_cfg (n : Nat) (s : State) : (presentPayload n s).cfg = s.cfg := rfl
@[simp] theorem presentPayload_life (n : Nat) (s : State) : (presentPayload n s).life = s.life := rfl
@[simp] theorem presentPayload_buf (n : Nat) (s : State) : (presentPayload n s).buf = s.buf := rfl
@[simp] theorem presentPayload_occ (n : Nat) (s : State) : (presentPayload n s).occ = s.occ := rfl
@[simp] theorem presentPayload_frames (n : Nat) (s : State) : (presentPayload n s).frames = s.frames := rfl
@[simp] theorem presentPayload_events (n : Nat) (s : State) : (presentPayload n s).events = s.events := rfl
@[simp] theorem presentPayload_seq (n : Nat) (s : State) : (presentPayload n s).seq = s.seq := rfl
@[simp] theorem presentPayload_push (n : Nat) (s : State) : (presentPayload n s).push = s.push := rfl
@[simp] theorem presentPayload_decReq (n : Nat) (s : State) : (presentPayload n s).decReq = s.decReq := rfl
@[simp] theorem presentPayload_din (n : Nat) (s : State) : (presentPayload n s).din = pushPayload n s := rfl
@[simp] theorem presentPayload_cmdPort (n : Nat) (s : State) : (presentPayload n s).cmdPort = s.cmdPort := rfl
@[simp] theorem presentPayload_responses (n : Nat) (s : State) : (presentPayload n s).responses = s.responses := rfl
@[simp] theorem presentPayload_eventPort (n : Nat) (s : State) : (presentPayload n s).eventPort = s.eventPort := rfl
@[simp] theorem presentPayload_requests (n : Nat) (s : State) : (presentPayload n s).requests = s.requests := rfl
@[simp] theorem presentPayload_decReads (n : Nat) (s : State) : (presentPayload n s).decReads = s.decReads := rfl
@[simp] theorem presentPayload_allocOk (n : Nat) (s : State) : (presentPayload n s).allocOk = s.allocOk := rfl
@[simp] theorem presentPayload_inputs (n : Nat) (s : State) : (presentPayload n s).inputs = s.inputs := rfl
@[simp] theorem presentPayload_micro (n : Nat) (s : State) : (presentPayload n s).micro = s.micro := rfl
@[simp] theorem presentPayload_draws (n : Nat) (s : State) : (presentPayload n s).draws = s.draws + (n - s.din.length) := rfl

@[simp] theorem commandError_cfg (w : Word) (s : State) : (commandError w s).cfg = s.cfg := rfl
@[simp] theorem commandError_life (w : Word) (s : State) : (commandError w s).life = s.life := rfl
@[simp] theorem commandError_buf (w : Word) (s : State) : (commandError w s).buf = s.buf := rfl
@[simp] theorem commandError_occ (w : Word) (s : State) : (commandError w s).occ = s.occ := rfl
@[simp] theorem commandError_frames (w : Word) (s : State) : (commandError w s).frames = s.frames := rfl
@[simp] theorem commandError_events (w : Word) (s : State) : (commandError w s).events = s.events ||| eventBit .cmderr := rfl
@[simp] theorem commandError_seq (w : Word) (s : State) : (commandError w s).seq = .ready := rfl
@[simp] theorem commandError_push (w : Word) (s : State) : (commandError w s).push = none := rfl
@[simp] theorem commandError_decReq (w : Word) (s : State) : (commandError w s).decReq = s.decReq := rfl
@[simp] theorem commandError_din (w : Word) (s : State) : (commandError w s).din = [] := rfl
@[simp] theorem commandError_cmdPort (w : Word) (s : State) : (commandError w s).cmdPort = s.cmdPort := rfl
@[simp] theorem commandError_responses (w : Word) (s : State) : (commandError w s).responses = s.responses ++ [⟨.cmdErr, 0⟩] := rfl
@[simp] theorem commandError_eventPort (w : Word) (s : State) : (commandError w s).eventPort = s.eventPort ++ [⟨.cmderr, w⟩] := rfl
@[simp] theorem commandError_requests (w : Word) (s : State) : (commandError w s).requests = s.requests := rfl
@[simp] theorem commandError_decReads (w : Word) (s : State) : (commandError w s).decReads = s.decReads := rfl
@[simp] theorem commandError_allocOk (w : Word) (s : State) : (commandError w s).allocOk = s.allocOk := rfl
@[simp] theorem commandError_inputs (w : Word) (s : State) : (commandError w s).inputs = s.inputs := rfl
@[simp] theorem commandError_micro (w : Word) (s : State) : (commandError w s).micro = s.micro := rfl
@[simp] theorem commandError_draws (w : Word) (s : State) : (commandError w s).draws = s.draws := rfl

@[simp] theorem fatalStop_cfg (e : Event) (x : Word) (r : Status) (y : Word) (s : State) : (fatalStop e x r y s).cfg = s.cfg := rfl
@[simp] theorem fatalStop_life (e : Event) (x : Word) (r : Status) (y : Word) (s : State) : (fatalStop e x r y s).life = .stopped := rfl
@[simp] theorem fatalStop_buf (e : Event) (x : Word) (r : Status) (y : Word) (s : State) : (fatalStop e x r y s).buf = [] := rfl
@[simp] theorem fatalStop_occ (e : Event) (x : Word) (r : Status) (y : Word) (s : State) : (fatalStop e x r y s).occ = 0 := rfl
@[simp] theorem fatalStop_frames (e : Event) (x : Word) (r : Status) (y : Word) (s : State) : (fatalStop e x r y s).frames = s.frames := rfl
@[simp] theorem fatalStop_events (e : Event) (x : Word) (r : Status) (y : Word) (s : State) : (fatalStop e x r y s).events = s.events ||| eventBit e := rfl
@[simp] theorem fatalStop_seq (e : Event) (x : Word) (r : Status) (y : Word) (s : State) : (fatalStop e x r y s).seq = .ready := rfl
@[simp] theorem fatalStop_push (e : Event) (x : Word) (r : Status) (y : Word) (s : State) : (fatalStop e x r y s).push = none := rfl
@[simp] theorem fatalStop_decReq (e : Event) (x : Word) (r : Status) (y : Word) (s : State) : (fatalStop e x r y s).decReq = s.decReq := rfl
@[simp] theorem fatalStop_din (e : Event) (x : Word) (r : Status) (y : Word) (s : State) : (fatalStop e x r y s).din = [] := rfl
@[simp] theorem fatalStop_cmdPort (e : Event) (x : Word) (r : Status) (y : Word) (s : State) : (fatalStop e x r y s).cmdPort = s.cmdPort := rfl
@[simp] theorem fatalStop_responses (e : Event) (x : Word) (r : Status) (y : Word) (s : State) : (fatalStop e x r y s).responses = s.responses ++ [⟨r, y⟩] := rfl
@[simp] theorem fatalStop_eventPort (e : Event) (x : Word) (r : Status) (y : Word) (s : State) : (fatalStop e x r y s).eventPort = s.eventPort ++ [⟨e, x⟩] := rfl
@[simp] theorem fatalStop_requests (e : Event) (x : Word) (r : Status) (y : Word) (s : State) : (fatalStop e x r y s).requests = s.requests := rfl
@[simp] theorem fatalStop_decReads (e : Event) (x : Word) (r : Status) (y : Word) (s : State) : (fatalStop e x r y s).decReads = s.decReads := rfl
@[simp] theorem fatalStop_allocOk (e : Event) (x : Word) (r : Status) (y : Word) (s : State) : (fatalStop e x r y s).allocOk = s.allocOk := rfl
@[simp] theorem fatalStop_inputs (e : Event) (x : Word) (r : Status) (y : Word) (s : State) : (fatalStop e x r y s).inputs = s.inputs := rfl
@[simp] theorem fatalStop_micro (e : Event) (x : Word) (r : Status) (y : Word) (s : State) : (fatalStop e x r y s).micro = s.micro := rfl
@[simp] theorem fatalStop_draws (e : Event) (x : Word) (r : Status) (y : Word) (s : State) : (fatalStop e x r y s).draws = s.draws := rfl

@[simp] theorem startActive_cfg (s : State) : (startActive s).cfg = s.cfg := rfl
@[simp] theorem startActive_life (s : State) : (startActive s).life = .active := rfl
@[simp] theorem startActive_buf (s : State) : (startActive s).buf = [] := rfl
@[simp] theorem startActive_occ (s : State) : (startActive s).occ = 0 := rfl
@[simp] theorem startActive_frames (s : State) : (startActive s).frames = s.frames := rfl
@[simp] theorem startActive_events (s : State) : (startActive s).events = s.events := rfl
@[simp] theorem startActive_seq (s : State) : (startActive s).seq = .ready := rfl
@[simp] theorem startActive_push (s : State) : (startActive s).push = none := rfl
@[simp] theorem startActive_decReq (s : State) : (startActive s).decReq = s.decReq := rfl
@[simp] theorem startActive_din (s : State) : (startActive s).din = [] := rfl
@[simp] theorem startActive_cmdPort (s : State) : (startActive s).cmdPort = s.cmdPort := rfl
@[simp] theorem startActive_responses (s : State) : (startActive s).responses = s.responses ++ [⟨.ok, 0⟩] := rfl
@[simp] theorem startActive_eventPort (s : State) : (startActive s).eventPort = s.eventPort := rfl
@[simp] theorem startActive_requests (s : State) : (startActive s).requests = s.requests := rfl
@[simp] theorem startActive_decReads (s : State) : (startActive s).decReads = s.decReads := rfl
@[simp] theorem startActive_allocOk (s : State) : (startActive s).allocOk = s.allocOk := rfl
@[simp] theorem startActive_inputs (s : State) : (startActive s).inputs = s.inputs := rfl
@[simp] theorem startActive_micro (s : State) : (startActive s).micro = s.micro := rfl
@[simp] theorem startActive_draws (s : State) : (startActive s).draws = s.draws := rfl

@[simp] theorem garbageReset_cfg (c : Classification) (s : State) : (garbageReset c s).cfg = s.cfg := rfl
@[simp] theorem garbageReset_life (c : Classification) (s : State) : (garbageReset c s).life = s.life := rfl
@[simp] theorem garbageReset_buf (c : Classification) (s : State) : (garbageReset c s).buf = [] := rfl
@[simp] theorem garbageReset_occ (c : Classification) (s : State) : (garbageReset c s).occ = 0 := rfl
@[simp] theorem garbageReset_frames (c : Classification) (s : State) : (garbageReset c s).frames = s.frames := rfl
@[simp] theorem garbageReset_events (c : Classification) (s : State) : (garbageReset c s).events = s.events ||| eventBit (if c = .nosync then .garb else .oversize) := rfl
@[simp] theorem garbageReset_seq (c : Classification) (s : State) : (garbageReset c s).seq = s.seq := rfl
@[simp] theorem garbageReset_push (c : Classification) (s : State) : (garbageReset c s).push = s.push := rfl
@[simp] theorem garbageReset_decReq (c : Classification) (s : State) : (garbageReset c s).decReq = s.decReq := rfl
@[simp] theorem garbageReset_din (c : Classification) (s : State) : (garbageReset c s).din = s.din := rfl
@[simp] theorem garbageReset_cmdPort (c : Classification) (s : State) : (garbageReset c s).cmdPort = s.cmdPort := rfl
@[simp] theorem garbageReset_responses (c : Classification) (s : State) : (garbageReset c s).responses = s.responses := rfl
@[simp] theorem garbageReset_eventPort (c : Classification) (s : State) : (garbageReset c s).eventPort = s.eventPort ++ [⟨if c = .nosync then .garb else .oversize, BitVec.ofNat 32 s.cfg.capacity⟩] := rfl
@[simp] theorem garbageReset_requests (c : Classification) (s : State) : (garbageReset c s).requests = s.requests := rfl
@[simp] theorem garbageReset_decReads (c : Classification) (s : State) : (garbageReset c s).decReads = s.decReads := rfl
@[simp] theorem garbageReset_allocOk (c : Classification) (s : State) : (garbageReset c s).allocOk = s.allocOk := rfl
@[simp] theorem garbageReset_inputs (c : Classification) (s : State) : (garbageReset c s).inputs = s.inputs := rfl
@[simp] theorem garbageReset_micro (c : Classification) (s : State) : (garbageReset c s).micro = s.micro := rfl
@[simp] theorem garbageReset_draws (c : Classification) (s : State) : (garbageReset c s).draws = s.draws := rfl

@[simp] theorem decoderReads_cfg (a : Word) (s : State) : (decoderReads a s).cfg = s.cfg := rfl
@[simp] theorem decoderReads_life (a : Word) (s : State) : (decoderReads a s).life = s.life := rfl
@[simp] theorem decoderReads_buf (a : Word) (s : State) : (decoderReads a s).buf = s.buf := rfl
@[simp] theorem decoderReads_occ (a : Word) (s : State) : (decoderReads a s).occ = s.occ := rfl
@[simp] theorem decoderReads_frames (a : Word) (s : State) : (decoderReads a s).frames = s.frames := rfl
@[simp] theorem decoderReads_events (a : Word) (s : State) : (decoderReads a s).events = s.events := rfl
@[simp] theorem decoderReads_seq (a : Word) (s : State) : (decoderReads a s).seq = s.seq := rfl
@[simp] theorem decoderReads_push (a : Word) (s : State) : (decoderReads a s).push = s.push := rfl
@[simp] theorem decoderReads_decReq (a : Word) (s : State) : (decoderReads a s).decReq = s.decReq := rfl
@[simp] theorem decoderReads_din (a : Word) (s : State) : (decoderReads a s).din = s.din := rfl
@[simp] theorem decoderReads_cmdPort (a : Word) (s : State) : (decoderReads a s).cmdPort = s.cmdPort := rfl
@[simp] theorem decoderReads_responses (a : Word) (s : State) : (decoderReads a s).responses = s.responses := rfl
@[simp] theorem decoderReads_eventPort (a : Word) (s : State) : (decoderReads a s).eventPort = s.eventPort := rfl
@[simp] theorem decoderReads_requests (a : Word) (s : State) : (decoderReads a s).requests = s.requests := rfl
@[simp] theorem decoderReads_decReads (a : Word) (s : State) : (decoderReads a s).decReads = s.decReads ++ [decoderReadData a s] := rfl
@[simp] theorem decoderReads_allocOk (a : Word) (s : State) : (decoderReads a s).allocOk = s.allocOk := rfl
@[simp] theorem decoderReads_inputs (a : Word) (s : State) : (decoderReads a s).inputs = s.inputs := rfl
@[simp] theorem decoderReads_micro (a : Word) (s : State) : (decoderReads a s).micro = s.micro := rfl
@[simp] theorem decoderReads_draws (a : Word) (s : State) : (decoderReads a s).draws = s.draws + 1 := rfl

@[simp] theorem requestAnswered_cfg (s : State) : (requestAnswered s).cfg = s.cfg := rfl
@[simp] theorem requestAnswered_life (s : State) : (requestAnswered s).life = s.life := rfl
@[simp] theorem requestAnswered_buf (s : State) : (requestAnswered s).buf = s.buf := rfl
@[simp] theorem requestAnswered_occ (s : State) : (requestAnswered s).occ = s.occ := rfl
@[simp] theorem requestAnswered_frames (s : State) : (requestAnswered s).frames = s.frames := rfl
@[simp] theorem requestAnswered_events (s : State) : (requestAnswered s).events = s.events := rfl
@[simp] theorem requestAnswered_seq (s : State) : (requestAnswered s).seq = s.seq := rfl
@[simp] theorem requestAnswered_push (s : State) : (requestAnswered s).push = none := rfl
@[simp] theorem requestAnswered_decReq (s : State) : (requestAnswered s).decReq = none := rfl
@[simp] theorem requestAnswered_din (s : State) : (requestAnswered s).din = s.din := rfl
@[simp] theorem requestAnswered_cmdPort (s : State) : (requestAnswered s).cmdPort = s.cmdPort := rfl
@[simp] theorem requestAnswered_responses (s : State) : (requestAnswered s).responses = s.responses := rfl
@[simp] theorem requestAnswered_eventPort (s : State) : (requestAnswered s).eventPort = s.eventPort := rfl
@[simp] theorem requestAnswered_requests (s : State) : (requestAnswered s).requests = s.requests := rfl
@[simp] theorem requestAnswered_decReads (s : State) : (requestAnswered s).decReads = s.decReads := rfl
@[simp] theorem requestAnswered_allocOk (s : State) : (requestAnswered s).allocOk = s.allocOk := rfl
@[simp] theorem requestAnswered_inputs (s : State) : (requestAnswered s).inputs = s.inputs := rfl
@[simp] theorem requestAnswered_micro (s : State) : (requestAnswered s).micro = s.micro := rfl
@[simp] theorem requestAnswered_draws (s : State) : (requestAnswered s).draws = s.draws := rfl

@[simp] theorem countFrame_cfg (s : State) : (countFrame s).cfg = s.cfg := rfl
@[simp] theorem countFrame_life (s : State) : (countFrame s).life = s.life := rfl
@[simp] theorem countFrame_buf (s : State) : (countFrame s).buf = s.buf := rfl
@[simp] theorem countFrame_occ (s : State) : (countFrame s).occ = s.occ := rfl
@[simp] theorem countFrame_frames (s : State) : (countFrame s).frames = satInc32 s.frames := rfl
@[simp] theorem countFrame_events (s : State) : (countFrame s).events = s.events := rfl
@[simp] theorem countFrame_seq (s : State) : (countFrame s).seq = s.seq := rfl
@[simp] theorem countFrame_push (s : State) : (countFrame s).push = s.push := rfl
@[simp] theorem countFrame_decReq (s : State) : (countFrame s).decReq = s.decReq := rfl
@[simp] theorem countFrame_din (s : State) : (countFrame s).din = s.din := rfl
@[simp] theorem countFrame_cmdPort (s : State) : (countFrame s).cmdPort = s.cmdPort := rfl
@[simp] theorem countFrame_responses (s : State) : (countFrame s).responses = s.responses := rfl
@[simp] theorem countFrame_eventPort (s : State) : (countFrame s).eventPort = s.eventPort := rfl
@[simp] theorem countFrame_requests (s : State) : (countFrame s).requests = s.requests := rfl
@[simp] theorem countFrame_decReads (s : State) : (countFrame s).decReads = s.decReads := rfl
@[simp] theorem countFrame_allocOk (s : State) : (countFrame s).allocOk = s.allocOk := rfl
@[simp] theorem countFrame_inputs (s : State) : (countFrame s).inputs = s.inputs := rfl
@[simp] theorem countFrame_micro (s : State) : (countFrame s).micro = s.micro := rfl
@[simp] theorem countFrame_draws (s : State) : (countFrame s).draws = s.draws := rfl

end Sys2Proof.Machine
end

