-- ==== Sys2Proof/Laws/Buffer.lean ====
section
/-! SUPPORT. What the buffer operations do to a buffer that holds exactly its occupied bytes, said once in terms of the stream
content `window s`. -/

namespace Sys2Proof.Machine

/-- `s` with the stream content `w` in its buffer. -/
def withWindow (w : List Byte) (s : State) : State := { s with buf := Memory.ofBytes 0 w, occ := w.length }

section fields
variable (w : List Byte) (s : State)
@[simp] theorem withWindow_cfg : (withWindow w s).cfg = s.cfg := rfl
@[simp] theorem withWindow_life : (withWindow w s).life = s.life := rfl
@[simp] theorem withWindow_buf : (withWindow w s).buf = Memory.ofBytes 0 w := rfl
@[simp] theorem withWindow_occ : (withWindow w s).occ = w.length := rfl
@[simp] theorem withWindow_frames : (withWindow w s).frames = s.frames := rfl
@[simp] theorem withWindow_events : (withWindow w s).events = s.events := rfl
@[simp] theorem withWindow_seq : (withWindow w s).seq = s.seq := rfl
@[simp] theorem withWindow_push : (withWindow w s).push = s.push := rfl
@[simp] theorem withWindow_decReq : (withWindow w s).decReq = s.decReq := rfl
@[simp] theorem withWindow_din : (withWindow w s).din = s.din := rfl
@[simp] theorem withWindow_cmdPort : (withWindow w s).cmdPort = s.cmdPort := rfl
@[simp] theorem withWindow_responses : (withWindow w s).responses = s.responses := rfl
@[simp] theorem withWindow_eventPort : (withWindow w s).eventPort = s.eventPort := rfl
@[simp] theorem withWindow_requests : (withWindow w s).requests = s.requests := rfl
@[simp] theorem withWindow_decReads : (withWindow w s).decReads = s.decReads := rfl
@[simp] theorem withWindow_allocOk : (withWindow w s).allocOk = s.allocOk := rfl
@[simp] theorem withWindow_inputs : (withWindow w s).inputs = s.inputs := rfl
@[simp] theorem withWindow_micro : (withWindow w s).micro = s.micro := rfl
@[simp] theorem withWindow_draws : (withWindow w s).draws = s.draws := rfl
end fields

@[simp] theorem window_withWindow (w : List Byte) (s : State) : window (withWindow w s) = w := by simp [window]

theorem bufferExact_withWindow (w : List Byte) (s : State) : BufferExact (withWindow w s) := by simp [BufferExact]

/-- An exact buffer is its window. -/
theorem withWindow_window {s : State} (h : BufferExact s) : withWindow (window s) s = s := by
  obtain ⟨hb, ho⟩ := h
  cases s
  simp only [withWindow, State.mk.injEq, true_and, and_true]
  refine ⟨hb.symm, ?_⟩
  simp only [window, List.length_map]
  exact ho.symm

@[simp] theorem withWindow_withWindow (v w : List Byte) (s : State) : withWindow v (withWindow w s) = withWindow v s := rfl

theorem occ_eq_length {s : State} (h : BufferExact s) : s.occ = (window s).length := by
  simpa [window] using h.2

theorem read_exact {s : State} (h : BufferExact s) (a : Nat) : Memory.read s.buf a = (window s)[a]? := by
  rw [h.1]; simp [window]

/-- An exact buffer is in the canonical form. -/
theorem wf_of_exact {s : State} (h : BufferExact s) : Memory.wf s.buf = true := by
  rw [h.1]; exact Memory.wf_ofBytes _ _

/-- An empty buffer is the empty window. -/
theorem emptyBuffer_eq (s : State) : emptyBuffer s = withWindow [] s := rfl

/-- The legal configurations, as inequalities (00_scope.md R7). -/
theorem configLegal_iff (c : Config) : configLegal c = true ↔
    1 ≤ c.markerLength ∧ c.marker.length = c.markerLength ∧ 2 * c.markerLength ≤ c.capacity ∧ c.capacity ≤ 2 ^ 31 - 1 := by
  simp [configLegal, and_assoc]

/-- APPEND on an exact buffer (40_buffer_manager.md R100). -/
theorem append_exact {s : State} (h : BufferExact s) (hb : s.occ ≤ s.cfg.capacity) (d : List Byte) :
    append d s = .ok (min d.length (s.cfg.capacity - s.occ),
      withWindow (window s ++ d.take (s.cfg.capacity - s.occ)) s) := by
  have hocc := occ_eq_length h
  have htake : d.take (min d.length (s.cfg.capacity - s.occ)) = d.take (s.cfg.capacity - s.occ) := by
    rw [List.take_eq_take_iff]; omega
  have hw : ∀ v, Memory.writeList s.buf s.occ v = Memory.ofBytes 0 (window s ++ v) := by
    intro v
    rw [h.1, hocc, ← Memory.writeList_ofBytes_end, Nat.zero_add]
  have hlen : (d.take (s.cfg.capacity - s.occ)).length = min d.length (s.cfg.capacity - s.occ) := by
    rw [List.length_take, Nat.min_comm]
  have hle : s.occ + min d.length (s.cfg.capacity - s.occ) ≤ s.cfg.capacity := by omega
  simp only [append, memWrite, htake, hlen, if_pos hle, hw, withWindow, List.length_append, ← hocc]

/-- EVICT on an exact buffer (40_buffer_manager.md R102). -/
theorem evict_exact {s : State} (h : BufferExact s) {off : Nat} (ho : off ≤ s.occ) :
    evict off s = .ok (withWindow ((window s).drop off) s) := by
  have hocc := occ_eq_length h
  simp only [evict, if_pos ho, withWindow, List.length_drop, ← hocc]
  rw [show Memory.shift s.buf off s.occ = Memory.ofBytes 0 ((window s).drop off) by
    conv_lhs => rw [h.1, hocc]
    exact Memory.shift_ofBytes off (window s)]

/-- EVICT beyond `occ` faults (40_buffer_manager.md R103). -/
theorem evict_beyond {s : State} {off : Nat} (ho : s.occ < off) :
    evict off s = .error (.evictBeyondOccupied off s.occ) := by
  simp [evict, Nat.not_le.mpr ho]

/-- MemRead on an exact buffer (20_memory.md R65). -/
theorem memRead_exact {s : State} (h : BufferExact s) {a n : Nat} (hn : a + n ≤ s.occ) :
    memRead a n s = .ok (((window s).drop a).take n) := by
  have hl : a + n ≤ (window s).length := occ_eq_length h ▸ hn
  have hr : Memory.readList s.buf a n = some (((window s).drop a).take n) := by
    conv_lhs => rw [h.1]
    exact Memory.readList_ofBytes hl
  simp only [memRead, if_pos hn, hr]

/-- DISPATCH on an exact buffer (42_driver_commands.md R148). -/
theorem dispatch_exact {s : State} (h : BufferExact s) {e : Nat} (he : e ≤ s.occ) :
    dispatch e s = .ok { s with decReq := some e, requests := s.requests ++ [⟨rangeField 0, rangeField e, (window s).take e⟩] } := by
  simp only [dispatch, memRead_exact h (a := 0) (by omega : 0 + e ≤ s.occ), List.drop_zero]

end Sys2Proof.Machine
end

