-- ==== Sys2Proof/Laws/Search.lean ====
section
/-! SUPPORT. The marker search, the candidate range and its validation, each said once (41_synchronizer.md). -/

namespace Sys2Proof.Machine

/-! ### FIND_MARKER as the lowest match -/

/-- FIND_MARKER answers an offset exactly when it is the lowest match from `origin` on (41_synchronizer.md R120). -/
theorem findMarker_eq_some_iff (origin o : Nat) (s : State) : findMarker origin s = some o ↔
    origin ≤ o ∧ o + s.cfg.markerLength ≤ s.occ ∧ markerAt o s = true ∧
      ∀ x, origin ≤ x → x < o → markerAt x s = false := by
  simp only [findMarker, List.find?_range'_eq_some]
  simp only [List.mem_range'_1, Bool.not_eq_eq_eq_not, Bool.not_true]
  constructor
  · rintro ⟨hm, ⟨h1, h2⟩, h3⟩
    exact ⟨h1, by omega, hm, h3⟩
  · rintro ⟨h1, h2, hm, h3⟩
    exact ⟨hm, ⟨h1, by omega⟩, h3⟩

/-- FIND_MARKER answers none exactly when no whole marker lies in the window from `origin` on. -/
theorem findMarker_eq_none_iff (origin : Nat) (s : State) : findMarker origin s = none ↔
    ∀ o, origin ≤ o → o + s.cfg.markerLength ≤ s.occ → markerAt o s = false := by
  simp only [findMarker, List.find?_eq_none, List.mem_range'_1, Bool.not_eq_true]
  constructor
  · intro h o h1 h2
    exact h o ⟨h1, by omega⟩
  · rintro h o ⟨h1, h2⟩
    exact h o h1 (by omega)

/-! ### A match as a sublist of the window -/

/-- A whole marker at offset `o` of an exact buffer: the window's bytes from `o` on begin with `M`. -/
theorem markerAt_exact {s : State} (h : BufferExact s) (hm : s.cfg.marker.length = s.cfg.markerLength) (o : Nat) :
    markerAt o s = true ↔ s.cfg.marker <+: (window s).drop o := by
  simp only [markerAt, List.all_eq_true, List.mem_range, markerByteAt, read_exact h]
  rw [List.prefix_iff_getElem?]
  constructor
  · intro hall i hi
    have := hall i (hm ▸ hi)
    rw [List.getElem?_drop]
    rw [List.getElem?_eq_getElem hi] at this
    revert this
    cases hw : (window s)[o + i]? with
    | none => simp
    | some b => simp
  · intro hall i hi
    have hi' : i < s.cfg.marker.length := hm.symm ▸ hi
    have := hall i hi'
    rw [List.getElem?_drop] at this
    rw [this, List.getElem?_eq_getElem hi']
    simp

/-- A whole marker ends inside the window. -/
theorem markerAt_bound {s : State} (h : BufferExact s) (hc : configLegal s.cfg = true) {o : Nat}
    (hm : markerAt o s = true) : o + s.cfg.markerLength ≤ s.occ := by
  obtain ⟨h1, h2, -, -⟩ := (configLegal_iff _).mp hc
  have := ((markerAt_exact h h2 o).mp hm).length_le
  rw [List.length_drop, ← occ_eq_length h] at this
  omega

/-- A match is a property of the configuration and the buffer alone. -/
theorem markerAt_congr {s t : State} (hc : s.cfg = t.cfg) (hb : s.buf = t.buf) (o : Nat) : markerAt o s = markerAt o t := by
  simp only [markerAt, markerByteAt, hc, hb]

/-- The search is a pure function of the configuration, the buffer and `occ` (41_synchronizer.md R120). -/
theorem findMarker_congr {s t : State} (hc : s.cfg = t.cfg) (hb : s.buf = t.buf) (ho : s.occ = t.occ) (o : Nat) :
    findMarker o s = findMarker o t := by
  simp only [findMarker, hc, ho]
  congr 1
  funext x
  exact markerAt_congr hc hb x

/-- After the first `k` bytes are dropped, a match stands `k` lower. -/
theorem markerAt_drop {s : State} (h : BufferExact s) (hm : s.cfg.marker.length = s.cfg.markerLength) (k o : Nat) :
    markerAt o (withWindow ((window s).drop k) s) = markerAt (k + o) s := by
  rw [Bool.eq_iff_iff, markerAt_exact (bufferExact_withWindow _ _) (by simpa using hm), markerAt_exact h hm]
  simp [List.drop_drop]

/-- Searching before or after an eviction finds the same marker, shifted (41_synchronizer.md R122). -/
theorem findMarker_drop {s : State} (h : BufferExact s) (hm : s.cfg.marker.length = s.cfg.markerLength)
    {k : Nat} (hk : k ≤ s.occ) (o : Nat) :
    findMarker o (withWindow ((window s).drop k) s) = (findMarker (k + o) s).map (· - k) := by
  have hl : ((window s).drop k).length = s.occ - k := by rw [List.length_drop, occ_eq_length h]
  cases hf : findMarker (k + o) s with
  | none =>
    rw [Option.map_none, findMarker_eq_none_iff]
    intro x h1 h2
    rw [markerAt_drop h hm]
    simp only [withWindow_occ, withWindow_cfg, hl] at h2
    exact (findMarker_eq_none_iff _ _).mp hf (k + x) (by omega) (by omega)
  | some y =>
    obtain ⟨h1, h2, h3, h4⟩ := (findMarker_eq_some_iff _ _ _).mp hf
    rw [Option.map_some, findMarker_eq_some_iff]
    simp only [withWindow_occ, withWindow_cfg, hl, markerAt_drop h hm]
    refine ⟨by omega, by omega, by rw [show k + (y - k) = y by omega]; exact h3, ?_⟩
    intro x hx1 hx2
    exact h4 (k + x) (by omega) (by omega)

/-! ### COMPUTE_RANGE -/

/-- Outcome 1 (41_synchronizer.md R123). -/
theorem computeRange_nosync {s : State} (h : findMarker 0 s = none) :
    computeRange s = .ok (⟨.nosync, ⟨-1, -1⟩, false⟩, s) := by
  simp [computeRange, h]

/-- A marker at `st`: the prefix is evicted, and the second search decides (41_synchronizer.md R124 to R127). -/
theorem computeRange_found {s : State} (h : BufferExact s) {st : Nat} (hf : findMarker 0 s = some st) :
    computeRange s = .ok
      ((match findMarker (st + s.cfg.markerLength) s with
        | none => ⟨.incomplete, ⟨0, -1⟩, decide (0 < st)⟩
        | some e => ⟨.valid, ⟨0, (e : Int) - (st : Int)⟩, decide (0 < st)⟩),
       withWindow ((window s).drop st) s) := by
  have hle : st ≤ s.occ := by
    have := (findMarker_eq_some_iff _ _ _).mp hf; omega
  by_cases hst : 0 < st
  · simp only [computeRange, hf, gt_iff_lt, evict_exact h hle, hst, decide_true]
    cases findMarker (st + s.cfg.markerLength) s <;> rfl
  · have h0 : st = 0 := by omega
    subst h0
    simp only [computeRange, hf, gt_iff_lt, Nat.lt_irrefl, if_false, decide_false, List.drop_zero, withWindow_window h]
    cases findMarker (0 + s.cfg.markerLength) s <;> rfl

/-- COMPUTE_RANGE on an exact buffer never faults. -/
theorem computeRange_ok {s : State} (h : BufferExact s) : ∃ r s', computeRange s = .ok (r, s') := by
  cases hf : findMarker 0 s with
  | none => exact ⟨_, _, computeRange_nosync hf⟩
  | some st => exact ⟨_, _, computeRange_found h hf⟩

/-- What COMPUTE_RANGE leaves and answers, in one statement: the window loses a prefix; after it the buffer is quiescent, or
begins with a whole frame `[0, e)` that VALIDATE accepts (41_synchronizer.md R122, R129, R133). -/
theorem computeRange_cases {s : State} (h : BufferExact s) (hc : configLegal s.cfg = true) (hb : s.occ ≤ s.cfg.capacity) :
    (findMarker 0 s = none ∧ computeRange s = .ok (⟨.nosync, ⟨-1, -1⟩, false⟩, s)) ∨
    ∃ st, findMarker 0 s = some st ∧ st + s.cfg.markerLength ≤ s.occ ∧
      (let s' := withWindow ((window s).drop st) s
       s'.occ = s.occ - st ∧ markerAt 0 s' = true ∧ findMarker 0 s' = some 0 ∧
        ((findMarker s.cfg.markerLength s' = none ∧
            computeRange s = .ok (⟨.incomplete, ⟨0, -1⟩, decide (0 < st)⟩, s')) ∨
         ∃ e, findMarker s.cfg.markerLength s' = some e ∧ s.cfg.markerLength ≤ e ∧ e + s.cfg.markerLength ≤ s'.occ ∧
            markerAt e s' = true ∧ validate s.cfg.capacity ⟨0, (e : Int)⟩ = true ∧
            computeRange s = .ok (⟨.valid, ⟨0, (e : Int)⟩, decide (0 < st)⟩, s'))) := by
  obtain ⟨hL, hm, hCL, -⟩ := (configLegal_iff _).mp hc
  cases hf : findMarker 0 s with
  | none => exact .inl ⟨rfl, computeRange_nosync hf⟩
  | some st =>
    obtain ⟨-, hle, hat, -⟩ := (findMarker_eq_some_iff _ _ _).mp hf
    refine .inr ⟨st, rfl, hle, ?_⟩
    have hl : ((window s).drop st).length = s.occ - st := by rw [List.length_drop, occ_eq_length h]
    have hfirst : findMarker 0 (withWindow ((window s).drop st) s) = some 0 := by
      rw [findMarker_eq_some_iff]
      simp only [withWindow_occ, withWindow_cfg, hl, markerAt_drop h hm, Nat.add_zero]
      exact ⟨le_refl 0, by omega, hat, fun x _ hx => absurd hx (Nat.not_lt_zero x)⟩
    have hat0 : markerAt 0 (withWindow ((window s).drop st) s) = true := by
      rw [markerAt_drop h hm]; simpa using hat
    have hsec := findMarker_drop h hm (k := st) (by omega) s.cfg.markerLength
    refine ⟨hl, hat0, hfirst, ?_⟩
    have hcr := computeRange_found h hf
    cases hs : findMarker (st + s.cfg.markerLength) s with
    | none =>
      rw [hs] at hsec hcr
      exact .inl ⟨hsec, hcr⟩
    | some y =>
      rw [hs] at hsec hcr
      obtain ⟨h1, h2, h3, -⟩ := (findMarker_eq_some_iff _ _ _).mp hs
      have hcast : ((y : Int) - (st : Int)) = ((y - st : Nat) : Int) := by omega
      refine .inr ⟨y - st, hsec, by omega, ?_, ?_, ?_, ?_⟩
      · rw [withWindow_occ, hl]; omega
      · rw [markerAt_drop h hm, show st + (y - st) = y by omega]; exact h3
      · simp only [validate, Bool.and_eq_true, decide_eq_true_eq]
        omega
      · rw [hcr]; simp only [hcast]

end Sys2Proof.Machine
end

