-- ==== Sys2Proof/Laws/Push.lean ====
section
/-! SUPPORT. The push/decode cycle: what one inner iteration and one stretch of the cycle can do, each said once
(42_driver_commands.md R145). -/

namespace Sys2Proof.Machine

/-! ### Step 6 and steps 4, 5 -/

@[simp] theorem progressGuard_true (k nop : Nat) (s : State) : progressGuard true k nop s = .again k 0 s := rfl

theorem endOfPass_full {s : State} (h : s.occ = s.cfg.capacity) (cls : Classification) (k nop : Nat) :
    endOfPass cls k nop s = .again k 0 (garbageReset cls s) := by
  simp [endOfPass, h]

theorem endOfPass_room {s : State} (h : s.occ ≠ s.cfg.capacity) (cls : Classification) (k nop : Nat) :
    endOfPass cls k nop s = .done (.next (respond .ok (BitVec.ofNat 32 k) s)) := by
  simp [endOfPass, h]

/-! ### States inside a running PUSH -/

/-- Inside a PUSH, no request outstanding: what every stretch of the cycle starts from and keeps. -/
structure Running (s : State) : Prop where
  legal : configLegal s.cfg = true
  exact : BufferExact s
  bound : s.occ ≤ s.cfg.capacity
  active : s.life = .active
  reserved : s.events.getLsbD 7 = false
  busy : s.seq = .busy
  noPush : s.push = none
  noRequest : s.decReq = none

theorem Running.withWindow {s : State} (h : Running s) {w : List Byte} (hw : w.length ≤ s.cfg.capacity) :
    Running (withWindow w s) :=
  ⟨h.legal, bufferExact_withWindow _ _, hw, h.active, h.reserved, h.busy, h.noPush, h.noRequest⟩

theorem Running.takeDin {s : State} (h : Running s) (d : List Byte) : Running { s with din := d } :=
  ⟨h.legal, h.exact, h.bound, h.active, h.reserved, h.busy, h.noPush, h.noRequest⟩

/-- No event's bit is the reserved bit 7. -/
theorem eventBit_reserved (e : Event) : (eventBit e).getLsbD 7 = false := by cases e <;> rfl

theorem Running.garbageReset {s : State} (h : Running s) (cls : Classification) : Running (garbageReset cls s) := by
  refine ⟨h.legal, ⟨rfl, rfl⟩, Nat.zero_le _, h.active, ?_, h.busy, h.noPush, h.noRequest⟩
  rw [garbageReset_events, BitVec.getLsbD_or, h.reserved, eventBit_reserved]
  rfl

/-- The state in which a PUSH waits for the decoder's answer on the frame `[0, e)` (42_driver_commands.md R148). -/
def waiting (e k nop : Nat) (prog : Bool) (s : State) : State :=
  { s with
    decReq := some e
    requests := s.requests ++ [⟨rangeField 0, rangeField e, (window s).take e⟩]
    push := some ⟨k, nop, prog⟩ }

/-- What remains of the window after COMPUTE_RANGE. -/
def trimmed (st : Nat) (s : State) : State := withWindow ((window s).drop st) s

/-- One inner iteration (42_driver_commands.md R145): a dispatch, a response at step 4, or a garbage reset at step 5. -/
theorem innerLoop_cases {s : State} (h : BufferExact s) (hc : configLegal s.cfg = true) (hb : s.occ ≤ s.cfg.capacity)
    (k nop : Nat) (prog : Bool) :
    (∃ st e, st ≤ s.occ ∧ s.cfg.markerLength ≤ e ∧ e + s.cfg.markerLength ≤ s.occ - st ∧
      markerAt 0 (trimmed st s) = true ∧ markerAt e (trimmed st s) = true ∧
      innerLoop k nop prog s = .done (.next (waiting e k nop (prog || decide (0 < st)) (trimmed st s)))) ∨
    (∃ st, st ≤ s.occ ∧ s.occ - st < s.cfg.capacity ∧ Quiescent (trimmed st s) ∧
      innerLoop k nop prog s = .done (.next (respond .ok (BitVec.ofNat 32 k) (trimmed st s)))) ∨
    (s.occ = s.cfg.capacity ∧ ∃ cls, ((cls = .nosync ∧ findMarker 0 s = none) ∨
        (cls = .incomplete ∧ findMarker 0 s = some 0 ∧ findMarker s.cfg.markerLength s = none)) ∧
      innerLoop k nop prog s = .again k 0 (garbageReset cls s)) := by
  rcases computeRange_cases h hc hb with ⟨hf, hcr⟩ | ⟨st, hf, hle, hocc, hat, hfirst, hsec⟩
  · have hv : validate s.cfg.capacity ⟨-1, -1⟩ = false := rfl
    have hin : innerLoop k nop prog s = endOfPass .nosync k nop s := by
      simp only [innerLoop, hcr, hv, Bool.false_eq_true, if_false]
    by_cases hfull : s.occ = s.cfg.capacity
    · exact .inr (.inr ⟨hfull, .nosync, .inl ⟨rfl, hf⟩, hin.trans (endOfPass_full hfull _ _ _)⟩)
    · have ht : trimmed 0 s = s := by simp [trimmed, withWindow_window h]
      refine .inr (.inl ⟨0, Nat.zero_le _, by omega, ?_, ?_⟩)
      · rw [ht]; exact .inl hf
      · rw [ht, hin, endOfPass_room hfull]
  · rcases hsec with ⟨hs, hcr⟩ | ⟨e, hs, hLe, heo, hate, hv, hcr⟩
    · have hv : validate s.cfg.capacity ⟨0, -1⟩ = false := rfl
      have hin : innerLoop k nop prog s = endOfPass .incomplete k nop (trimmed st s) := by
        simp only [innerLoop, hcr, withWindow_cfg, hv, Bool.false_eq_true, if_false, trimmed]
      have hto : (trimmed st s).occ = s.occ - st := hocc
      by_cases hfull : s.occ - st = s.cfg.capacity
      · have hL := ((configLegal_iff _).mp hc)
        have h0 : st = 0 := by omega
        subst h0
        have ht : trimmed 0 s = s := by simp [trimmed, withWindow_window h]
        have hso : s.occ = s.cfg.capacity := by omega
        rw [ht] at hin
        have hs' : findMarker s.cfg.markerLength s = none := by
          have : withWindow ((window s).drop 0) s = s := ht
          rw [this] at hs; exact hs
        exact .inr (.inr ⟨hso, .incomplete, .inr ⟨rfl, hf, hs'⟩, hin.trans (endOfPass_full hso _ _ _)⟩)
      · refine .inr (.inl ⟨st, by omega, by omega, .inr ⟨hfirst, hs⟩, ?_⟩)
        rw [hin, endOfPass_room (by rw [hto]; exact hfull)]
    · have heo' : e + s.cfg.markerLength ≤ s.occ - st := hocc ▸ heo
      refine .inl ⟨st, e, by omega, hLe, heo', hat, hate, ?_⟩
      have hd : dispatch e (trimmed st s) = .ok { trimmed st s with
          decReq := some e
          requests := (trimmed st s).requests ++ [⟨rangeField 0, rangeField e, (window (trimmed st s)).take e⟩] } :=
        dispatch_exact (bufferExact_withWindow _ _) (by show e ≤ (trimmed st s).occ; rw [show (trimmed st s).occ = s.occ - st from hocc]; omega)
      simp only [innerLoop, hcr, withWindow_cfg, hv, if_true, Int.toNat_natCast]
      rw [show withWindow ((window s).drop st) s = trimmed st s from rfl, hd]
      rfl

/-! ### One stretch of the cycle -/

/-- Everything a stretch of a PUSH can do, from a state `s` with `k` bytes consumed to the state `t` in which the PUSH has
responded or waits for the decoder: `n` more bytes were taken, and the garbage records `gs` were emitted. -/
structure Stretch (k n : Nat) (gs : List EventRecord) (s t : State) : Prop where
  inv : Inv t
  cfg : t.cfg = s.cfg
  life : t.life = .active
  frames : t.frames = s.frames
  cmdPort : t.cmdPort = s.cmdPort
  decReads : t.decReads = s.decReads
  allocOk : t.allocOk = s.allocOk
  inputs : t.inputs = s.inputs
  micro : t.micro = s.micro
  draws : t.draws = s.draws
  taken : n ≤ s.din.length
  records : t.eventPort = s.eventPort ++ gs
  garbage : ∀ g ∈ gs, (g.event = .garb ∨ g.event = .oversize) ∧ g.info = BitVec.ofNat 32 s.cfg.capacity
  bits : ∀ i, t.events.getLsbD i = (s.events.getLsbD i || gs.any fun g => (eventBit g.event).getLsbD i)
  content : t.occ + gs.length * s.cfg.capacity ≤ s.occ + n
  ending : (t.seq = .ready ∧ t.responses = s.responses ++ [⟨.ok, BitVec.ofNat 32 (k + n)⟩] ∧ t.requests = s.requests) ∨
    (t.seq = .busy ∧ t.responses = s.responses ∧ (∃ nop prog, t.push = some ⟨k + n, nop, prog⟩) ∧
      t.din = s.din.drop n ∧
      ∃ e, t.decReq = some e ∧ t.requests = s.requests ++ [⟨rangeField 0, rangeField e, (window t).take e⟩])

/-- An inner iteration ends the stretch without taking a byte, or ends in a garbage reset of a full buffer. -/
theorem innerLoop_stretch {s : State} (h : Running s) (k nop : Nat) (prog : Bool) :
    (∃ t, innerLoop k nop prog s = .done (.next t) ∧ Stretch k 0 [] s t) ∨
    (s.occ = s.cfg.capacity ∧ ∃ cls, innerLoop k nop prog s = .again k 0 (garbageReset cls s)) := by
  obtain ⟨hL, hm, hCL, -⟩ := (configLegal_iff _).mp h.legal
  rcases innerLoop_cases h.exact h.legal h.bound k nop prog with
    ⟨st, e, hst, hLe, heo, hat, hate, hin⟩ | ⟨st, hst, hroom, hq, hin⟩ | ⟨hfull, cls, -, hin⟩
  · refine .inl ⟨_, hin, ?_⟩
    have hocc : (trimmed st s).occ = s.occ - st := by
      simp [trimmed, occ_eq_length h.exact]
    refine ⟨⟨h.legal, bufferExact_withWindow ((window s).drop st) s, ?_, ?_, h.reserved, ?_, ?_, ?_⟩, rfl, h.active, rfl, rfl, rfl, rfl, rfl, rfl,
      rfl, Nat.zero_le _, by simp [waiting, trimmed], by simp, by simp [waiting, trimmed], ?_, ?_⟩
    · show (trimmed st s).occ ≤ s.cfg.capacity
      have := h.bound; omega
    · intro hl; exact absurd h.active hl
    · intro hs; exact absurd (h.busy.symm.trans hs) (by decide)
    · intro hs; exact absurd (h.busy.symm.trans hs) (by decide)
    · intro _
      refine ⟨h.active, rfl, e, rfl, hLe, ?_, ?_, ?_⟩
      · show e + s.cfg.markerLength ≤ (trimmed st s).occ
        omega
      · exact (markerAt_congr rfl rfl 0).trans hat
      · exact (markerAt_congr rfl rfl e).trans hate
    · show (trimmed st s).occ + 0 * _ ≤ s.occ + 0
      omega
    · exact .inr ⟨h.busy, rfl, ⟨nop, _, rfl⟩, rfl, e, rfl, rfl⟩
  · refine .inl ⟨_, hin, ?_⟩
    have hocc : (trimmed st s).occ = s.occ - st := by
      simp [trimmed, occ_eq_length h.exact]
    refine ⟨⟨h.legal, bufferExact_withWindow ((window s).drop st) s, ?_, ?_, h.reserved, fun _ => ⟨rfl, h.noRequest⟩, ?_, ?_⟩, rfl, h.active, rfl, rfl,
      rfl, rfl, rfl, rfl, rfl, Nat.zero_le _, by simp [trimmed], by simp, by simp [trimmed], ?_, ?_⟩
    · show (trimmed st s).occ ≤ s.cfg.capacity
      have := h.bound; omega
    · intro hl; exact absurd h.active hl
    · intro _ _
      refine ⟨?_, ?_⟩
      · show (trimmed st s).occ < s.cfg.capacity
        omega
      · rcases hq with hq | ⟨hq1, hq2⟩
        · exact .inl ((findMarker_congr rfl rfl rfl _).trans hq)
        · exact .inr ⟨(findMarker_congr rfl rfl rfl _).trans hq1, (findMarker_congr rfl rfl rfl _).trans hq2⟩
    · intro hs; exact absurd hs (by simp)
    · show (trimmed st s).occ + 0 * _ ≤ s.occ + 0
      omega
    · exact .inl ⟨rfl, rfl, rfl⟩
  · exact .inr ⟨hfull, cls, hin⟩

/-- A stretch that begins with a garbage reset, after `m` bytes were appended to `s`. -/
theorem Stretch.afterGarbage {k m n : Nat} {gs : List EventRecord} {s t : State} {w : List Byte} {cls : Classification}
    (hm : m ≤ s.din.length) (hfull : s.occ + m = s.cfg.capacity)
    (h : Stretch (k + m) n gs (garbageReset cls { withWindow w s with din := s.din.drop m }) t) :
    Stretch k (m + n) (⟨if cls = .nosync then .garb else .oversize, BitVec.ofNat 32 s.cfg.capacity⟩ :: gs) s t := by
  have htaken : n ≤ (s.din.drop m).length := h.taken
  have hcontent : t.occ + gs.length * s.cfg.capacity ≤ 0 + n := h.content
  refine ⟨h.inv, h.cfg, h.life, h.frames, h.cmdPort, h.decReads, h.allocOk, h.inputs, h.micro, h.draws, ?_, ?_, ?_, ?_, ?_, ?_⟩
  · rw [List.length_drop] at htaken; omega
  · rw [h.records, garbageReset_eventPort]
    simp
  · intro g hg
    rcases List.mem_cons.mp hg with rfl | hg
    · refine ⟨?_, rfl⟩
      by_cases hcl : cls = .nosync <;> simp [hcl]
    · exact h.garbage g hg
  · intro i
    rw [h.bits i, garbageReset_events, BitVec.getLsbD_or]
    simp [Bool.or_assoc]
  · simp only [List.length_cons, Nat.add_mul, Nat.one_mul]
    omega
  · rw [← Nat.add_assoc]
    rcases h.ending with ⟨h1, h2, h3⟩ | ⟨h1, h2, h3, h4, h5⟩
    · exact .inl ⟨h1, h2, h3⟩
    · refine .inr ⟨h1, h2, h3, ?_, h5⟩
      rw [h4]
      show (s.din.drop m).drop n = _
      rw [List.drop_drop]

/-- A stretch with no garbage reset, after `m` bytes were appended to `s`. -/
theorem Stretch.afterAppend {k m : Nat} {s t : State} {w : List Byte}
    (hm : m ≤ s.din.length) (hw : w.length = s.occ + m)
    (h : Stretch (k + m) 0 [] { withWindow w s with din := s.din.drop m } t) : Stretch k m [] s t := by
  have hcontent : t.occ + 0 * s.cfg.capacity ≤ w.length + 0 := h.content
  refine ⟨h.inv, h.cfg, h.life, h.frames, h.cmdPort, h.decReads, h.allocOk, h.inputs, h.micro, h.draws, hm, h.records, h.garbage,
    h.bits, ?_, ?_⟩
  · simp only [List.length_nil]; omega
  · rcases h.ending with ⟨h1, h2, h3⟩ | ⟨h1, h2, h3, h4, h5⟩
    · exact .inl ⟨h1, h2, h3⟩
    · refine .inr ⟨h1, h2, h3, ?_, h5⟩
      rw [h4, List.drop_zero]

/-- Step 1 on an exact buffer: the outer pass appends what fits and enters the inner loop (42_driver_commands.md R146). -/
theorem outerPass_eq {s : State} (h : BufferExact s) (hb : s.occ ≤ s.cfg.capacity) (k nop : Nat) :
    outerPass k nop s =
      let n := min s.din.length (s.cfg.capacity - s.occ)
      innerLoop (k + n) nop (decide (0 < n))
        { withWindow (window s ++ s.din.take (s.cfg.capacity - s.occ)) s with din := s.din.drop n } := by
  simp only [outerPass, append_exact h hb, withWindow_din, gt_iff_lt]

/-- The outer loop never runs into its bound, and its whole effect is one stretch; it takes a byte whenever there is one and
room for it (42_driver_commands.md R145, R156, R157). -/
theorem outerLoop_stretch {fuel : Nat} {s : State} (h : Running s) (k nop : Nat)
    (hfuel : s.din.length + 2 ≤ fuel ∨ (s.occ = 0 ∧ s.din.length + 1 ≤ fuel)) :
    ∃ n gs t, outerLoop fuel k nop s = .next t ∧ Stretch k n gs s t ∧
      min s.din.length (s.cfg.capacity - s.occ) ≤ n := by
  induction fuel generalizing s k nop with
  | zero => omega
  | succ fuel ih =>
    obtain ⟨hL, hm, hCL, -⟩ := (configLegal_iff _).mp h.legal
    have hbound := h.bound
    obtain ⟨m, hm'⟩ : ∃ m, m = min s.din.length (s.cfg.capacity - s.occ) := ⟨_, rfl⟩
    obtain ⟨w, hw⟩ : ∃ w, w = window s ++ s.din.take (s.cfg.capacity - s.occ) := ⟨_, rfl⟩
    have hwl : w.length = s.occ + m := by
      rw [hw, List.length_append, ← occ_eq_length h.exact, List.length_take, hm', Nat.min_comm]
    have hpass := outerPass_eq h.exact h.bound k nop
    simp only [← hm', ← hw] at hpass
    have hrun : Running { withWindow w s with din := s.din.drop m } :=
      (h.withWindow (by omega)).takeDin _
    simp only [outerLoop, hpass]
    rcases innerLoop_stretch hrun (k + m) nop (decide (0 < m)) with ⟨t, hin, hst⟩ | ⟨hfull, cls, hin⟩
    · refine ⟨m, [], t, ?_, hst.afterAppend (by omega) hwl, by omega⟩
      rw [hin]
    · have hfull' : s.occ + m = s.cfg.capacity := by
        have : w.length = s.cfg.capacity := hfull
        omega
      have hdin : (garbageReset cls { withWindow w s with din := s.din.drop m }).din.length = s.din.length - m := by
        show (s.din.drop m).length = _
        rw [List.length_drop]
      obtain ⟨n, gs, t, hl, hst, -⟩ := ih (hrun.garbageReset cls) (k + m) 0 (by
        right
        refine ⟨rfl, ?_⟩
        rw [hdin]
        omega)
      refine ⟨m + n, _, t, ?_, hst.afterGarbage (by omega) hfull', by omega⟩
      rw [hin]
      exact hl

/-- Where the decoder's answer resumes a PUSH, the whole effect is one stretch too. -/
theorem resumePush_stretch {s : State} (h : Running s) (k nop : Nat) (prog : Bool) :
    ∃ n gs t, resumePush k nop prog s = .next t ∧ Stretch k n gs s t := by
  rcases innerLoop_stretch h k nop prog with ⟨t, hin, hst⟩ | ⟨hfull, cls, hin⟩
  · exact ⟨0, [], t, by rw [resumePush, hin], hst⟩
  · obtain ⟨n, gs, t, hl, hst, -⟩ := outerLoop_stretch (h.garbageReset cls) k 0 (.inl (Nat.le_refl _))
    have hst' : Stretch (k + 0) n gs (garbageReset cls { withWindow (window s) s with din := s.din.drop 0 }) t := by
      rw [withWindow_window h.exact, List.drop_zero, Nat.add_zero]; exact hst
    refine ⟨0 + n, _, t, ?_, Stretch.afterGarbage (Nat.zero_le _) (by omega) hst'⟩
    rw [resumePush, hin]
    exact hl

end Sys2Proof.Machine
end

