-- ==== Sys2Proof/Laws/Step.lean ====
section
/-! SUPPORT. What one step can do, said once: an accepted command, or one act of the environment. -/

namespace Sys2Proof.Machine

/-- A READY block with a command presented accepts the oldest one; nothing else is accepted (20_memory.md R60). -/
theorem nextCommand_eq_some_iff (s : State) (w : Word) (s' : State) : nextCommand s = some (w, s') ↔
    s.seq = .ready ∧ ∃ c rest, s.cmdPort = c :: rest ∧ w = c.word ∧ s' = accept c rest s := by
  unfold nextCommand
  split
  · rename_i c rest hs hc
    simp only [Option.some.injEq, Prod.mk.injEq]
    constructor
    · rintro ⟨rfl, rfl⟩
      exact ⟨hs, c, rest, hc, rfl, rfl⟩
    · rintro ⟨-, c', rest', hc', rfl, rfl⟩
      rw [hc] at hc'
      obtain ⟨rfl, rfl⟩ := List.cons.inj hc'
      exact ⟨rfl, rfl⟩
  · rename_i h
    simp only [reduceCtorEq, false_iff]
    rintro ⟨hs, c, rest, hc, -⟩
    exact h c rest hs hc

theorem nextCommand_busy {s : State} (h : s.seq = .busy) : nextCommand s = none := by
  unfold nextCommand
  rw [h]

/-- An accepted command is decoded and executed (42_driver_commands.md R140). -/
theorem step_accepts {s : State} (hc : configLegal s.cfg = true) (hs : s.seq = .ready) {c : HostCommand}
    {rest : List HostCommand} (hq : s.cmdPort = c :: rest) : step s = exec (decode c.word) (accept c rest s) := by
  have : nextCommand s = some (c.word, accept c rest s) := (nextCommand_eq_some_iff _ _ _).mpr ⟨hs, c, rest, hq, rfl, rfl⟩
  simp [step, hc, this]

/-- A block that accepts nothing waits for its environment. -/
theorem step_waits {s : State} (hc : configLegal s.cfg = true) (hn : nextCommand s = none) :
    step s = waitForEnvironment s := by
  simp [step, hc, hn]

/-- An environment act reaches a block that accepts nothing. -/
theorem step_receives {s : State} (hc : configLegal s.cfg = true) (hn : nextCommand s = none) {i : Input} {rest : List Input}
    (hi : s.inputs = i :: rest) : step s = receive i { s with inputs := rest } := by
  simp [step_waits hc hn, waitForEnvironment, hi]

/-- Inversion of a step that answers a next state. -/
theorem step_next_cases {s t : State} (h : step s = .next t) : configLegal s.cfg = true ∧
    ((∃ c rest, s.seq = .ready ∧ s.cmdPort = c :: rest ∧ exec (decode c.word) (accept c rest s) = .next t) ∨
     (nextCommand s = none ∧ s.inputs = [] ∧ t = s) ∨
     (nextCommand s = none ∧ ∃ i rest, s.inputs = i :: rest ∧ receive i { s with inputs := rest } = .next t)) := by
  unfold step at h
  split at h
  · rename_i hc
    refine ⟨hc, ?_⟩
    split at h
    · rename_i w s' hn
      obtain ⟨hs, c, rest, hq, rfl, rfl⟩ := (nextCommand_eq_some_iff _ _ _).mp hn
      exact .inl ⟨c, rest, hs, hq, h⟩
    · rename_i hn
      unfold waitForEnvironment at h
      split at h
      · rename_i hi
        exact .inr (.inl ⟨hn, hi, (Host.Outcome.next.inj h).symm⟩)
      · rename_i i rest hi
        exact .inr (.inr ⟨hn, i, rest, hi, h⟩)
  · exact absurd h (by simp)

/-- No decoded word is a micro-operation: what `exec` can be given by a step (30_encoding.md R85). -/
theorem decode_cases (w : Word) : decode w = .start ∨ decode w = .stop ∨ (∃ n, decode w = .push n) ∨
    (∃ m, decode w = .ack m) ∨ (∃ i, decode w = .rdreg i) ∨ decode w = .illegal w := by
  unfold decode
  split_ifs <;> simp

/-- An accepted PUSH in `Active` runs from a `Running` state. -/
theorem running_of_accept {s : State} (h : Inv s) (hs : s.seq = .ready) (ha : s.life = .active) (c : HostCommand)
    (rest : List HostCommand) (n : Nat) : Running (presentPayload n (accept c rest s)) :=
  ⟨h.legal, h.exact, h.bound, ha, h.reserved, rfl, (h.ready hs).1, (h.ready hs).2⟩

/-- The payload on the data-in port is `N` bytes long (30_encoding.md R76). -/
theorem length_pushPayload (n : Nat) (s : State) : (pushPayload n s).length = n := by
  have hf : ∀ i m, (freePayload i m).length = m := by
    intro i m
    induction m generalizing i with
    | zero => rfl
    | succ m ih => simp [freePayload, ih]
  simp only [pushPayload, List.length_append, List.length_take, hf]
  omega

/-- Step 3 ends where the range is not valid (42_driver_commands.md R147). -/
theorem innerLoop_of_invalid {s s' : State} {r : RangeResult} (h : computeRange s = .ok (r, s')) (hv : validate s'.cfg.capacity r.range = false) (k nop : Nat) (p : Bool) :
    innerLoop k nop p s = endOfPass r.cls k nop s' := by
  simp only [innerLoop, h, hv, Bool.false_eq_true, if_false]

/-- A valid range is dispatched (42_driver_commands.md R147, R148). -/
theorem innerLoop_of_valid {s s' s'' : State} {r : RangeResult} (h : computeRange s = .ok (r, s')) (hv : validate s'.cfg.capacity r.range = true) (hd : dispatch r.range.last.toNat s' = .ok s'') (k nop : Nat) (p : Bool) :
    innerLoop k nop p s = .done (.next { s'' with push := some ⟨k, nop, p || r.ev⟩ }) := by
  simp only [innerLoop, h, hv, if_true, hd]

/-- A PUSH in `Active` after its first APPEND (42_driver_commands.md R145, R146). -/
theorem execPush_firstPass {s : State} {N : BitVec 16} (hx : BufferExact s) (hb : s.occ ≤ s.cfg.capacity) (ha : s.life = .active) :
  let d := pushPayload N.toNat s
  let n := min N.toNat (s.cfg.capacity - s.occ)
  let w := window s ++ d.take n
  let s1 : State := { s with buf := Memory.ofBytes 0 w, occ := s.occ + n, din := d.drop n, draws := s.draws + (N.toNat - s.din.length) }
  exec (.push N) s = (match innerLoop n 0 (decide (0 < n)) s1 with
    | .done o => o
    | .again k' nop' s' => outerLoop (N.toNat + 1) k' nop' s') ∧ w.length = s.occ + n ∧ BufferExact s1 ∧ window s1 = w := by
  intro d n w s1
  have hdl : d.length = N.toNat := length_pushPayload _ _
  have hx' : BufferExact (presentPayload N.toNat s) := hx
  have hl : w.length = s.occ + n := by
    simp only [w, List.length_append, List.length_take, hdl, ← occ_eq_length hx, n]; omega
  have hs1 : s1 = { withWindow w (presentPayload N.toNat s) with din := d.drop n } := by
    simp only [s1, withWindow, presentPayload, hl]
  refine ⟨?_, hl, ?_, ?_⟩
  · simp only [exec, execPush, ha, if_true]
    rw [show passBound (presentPayload N.toNat s) = (N.toNat + 1) + 1 from by show (pushPayload N.toNat s).length + 2 = _; rw [length_pushPayload]]
    rw [outerLoop, outerPass_eq hx' hb]
    have h1 : (presentPayload N.toNat s).din = d := rfl
    have h2 : min d.length ((presentPayload N.toNat s).cfg.capacity - (presentPayload N.toNat s).occ) = n := by rw [hdl]; rfl
    have h3 : d.take ((presentPayload N.toNat s).cfg.capacity - (presentPayload N.toNat s).occ) = d.take n := by
      rw [List.take_eq_take_iff, hdl]; show min (s.cfg.capacity - s.occ) N.toNat = min (min N.toNat (s.cfg.capacity - s.occ)) N.toNat; omega
    simp only [h1, h2, h3, Nat.zero_add]
    rw [hs1]; rfl
  · rw [hs1]; exact bufferExact_withWindow w (presentPayload N.toNat s)
  · rw [hs1]; exact window_withWindow w (presentPayload N.toNat s)

/-- An accepted PUSH in `Active` is one stretch (42_driver_commands.md R145). -/
theorem execPush_stretch {s : State} (h : Inv s) (hs : s.seq = .ready) (ha : s.life = .active) (c : HostCommand)
    (rest : List HostCommand) (n : BitVec 16) :
    ∃ m gs t, execPush n (accept c rest s) = .next t ∧
      Stretch 0 m gs (presentPayload n.toNat (accept c rest s)) t ∧ m ≤ n.toNat ∧ min n.toNat 1 ≤ m := by
  have hrun := running_of_accept h hs ha c rest n.toNat
  obtain ⟨m, gs, t, ho, hst, hmin⟩ := outerLoop_stretch hrun 0 0 (.inl (Nat.le_refl _))
  have hlen : (presentPayload n.toNat (accept c rest s)).din.length = n.toNat := length_pushPayload _ _
  have hocc : s.occ < s.cfg.capacity := (h.rest hs ha).1
  refine ⟨m, gs, t, ?_, hst, hlen ▸ hst.taken, ?_⟩
  · have : (accept c rest s).life = .active := ha
    simp only [execPush, this, if_true]
    exact ho
  · rw [hlen] at hmin
    have : min n.toNat (s.cfg.capacity - s.occ) ≤ m := hmin
    omega

/-- After the frame `[0, e)` is evicted the buffer begins with the marker that ended it, so the resumed PUSH dispatches the next
frame or responds: no byte is taken and no garbage is found (42_driver_commands.md R147, R149). -/
theorem resumePush_afterFrame {s : State} (h : Running s) (hroom : s.occ < s.cfg.capacity) (hat : markerAt 0 s = true)
    (hL : s.cfg.markerLength ≤ s.occ) (k nop : Nat) (prog : Bool) :
    ∃ t, resumePush k nop prog s = .next t ∧ Stretch k 0 [] s t ∧ t.buf = s.buf ∧ t.occ = s.occ := by
  have hfirst : findMarker 0 s = some 0 := by
    rw [findMarker_eq_some_iff]
    exact ⟨le_refl 0, by omega, hat, fun x _ hx => absurd hx (Nat.not_lt_zero x)⟩
  rcases innerLoop_stretch h k nop prog with ⟨t, hin, hst⟩ | ⟨hfull, -⟩
  · refine ⟨t, by rw [resumePush, hin], hst, ?_⟩
    have hw0 : withWindow (window s) s = s := withWindow_window h.exact
    obtain ⟨r, hcr⟩ : ∃ r, computeRange s = .ok (r, s) := by
      have hcr := computeRange_found h.exact hfirst
      rw [List.drop_zero, hw0] at hcr
      exact ⟨_, hcr⟩
    simp only [innerLoop, hcr] at hin
    split at hin
    · split at hin
      · simp at hin
      · rename_i s'' hd
        have ht := Host.Outcome.next.inj (PassEnd.done.inj hin)
        have hds : s''.buf = s.buf ∧ s''.occ = s.occ := by
          unfold dispatch at hd
          split at hd
          · simp at hd
          · have := Except.ok.inj hd
            subst this
            exact ⟨rfl, rfl⟩
        subst ht
        exact hds
    · rw [endOfPass_room (by omega)] at hin
      have ht := Host.Outcome.next.inj (PassEnd.done.inj hin)
      subst ht
      exact ⟨rfl, rfl⟩
  · omega

/-- The decoder answers OK or recoverable: the frame is evicted and counted, DERR is raised for recoverable, and the PUSH goes
on (42_driver_commands.md R149, R150). -/
theorem frameDecoded_continues {s : State} (h : Inv s) {e : Nat} (hp : FramePending e s) (hb : s.seq = .busy) (c : PushLoop)
    {r : DecoderResult} (hr : r ≠ .fatal) :
    ∃ t, frameDecoded c e r (requestAnswered s) = .next t ∧
      Stretch c.k 0 [] (countFrame (withWindow ((window s).drop e)
        (if r = .recoverable then raiseEvent .derr (BitVec.ofNat 32 e) (requestAnswered s) else requestAnswered s))) t ∧
      t.buf = Memory.ofBytes 0 ((window s).drop e) ∧ t.occ = s.occ - e := by
  obtain ⟨hreq, hLe, heo, hat0, hate⟩ := hp
  obtain ⟨hL, hm, hCL, -⟩ := (configLegal_iff _).mp h.legal
  obtain ⟨hlife, -, -⟩ := h.busy hb
  obtain ⟨s0, hs0⟩ : ∃ s0, s0 = (if r = .recoverable then
      raiseEvent .derr (BitVec.ofNat 32 e) (requestAnswered s) else requestAnswered s) := ⟨_, rfl⟩
  have hf : s0.buf = s.buf ∧ s0.occ = s.occ ∧ s0.cfg = s.cfg ∧ s0.life = s.life ∧ s0.seq = s.seq ∧ s0.push = none ∧
      s0.decReq = none ∧ s0.frames = s.frames ∧ s0.events.getLsbD 7 = false := by
    subst hs0
    split
    · refine ⟨rfl, rfl, rfl, rfl, rfl, rfl, rfl, rfl, ?_⟩
      rw [raiseEvent_events, BitVec.getLsbD_or, eventBit_reserved]
      show (s.events.getLsbD 7 || false) = false
      rw [h.reserved]
      rfl
    · exact ⟨rfl, rfl, rfl, rfl, rfl, rfl, rfl, rfl, h.reserved⟩
  obtain ⟨h1, h2, h3, h4, h5, h6, h7, h8, h9⟩ := hf
  have hx : BufferExact s0 := by
    have := h.exact
    simp only [BufferExact, window, h1, h2] at this ⊢
    exact this
  have hw : window s0 = window s := by simp only [window, h1]
  have hev := evict_exact hx (off := e) (by omega)
  have hlen : ((window s).drop e).length = s.occ - e := by rw [List.length_drop, occ_eq_length h.exact]
  have hrun : Running (countFrame (withWindow ((window s).drop e) s0)) :=
    ⟨h3 ▸ h.legal, bufferExact_withWindow ((window s).drop e) s0, by
      show ((window s).drop e).length ≤ s0.cfg.capacity
      rw [h3]
      have := h.bound
      omega, h4.trans hlife, h9, h5.trans hb, h6, h7⟩
  obtain ⟨t, ht, hst, htb, hto⟩ := resumePush_afterFrame hrun
    (by
      show ((window s).drop e).length < s0.cfg.capacity
      rw [h3]; have := h.bound; omega)
    (by
      refine (markerAt_congr (s := withWindow ((window s).drop e) s0) (t := withWindow ((window s).drop e) s) h3 rfl 0).trans ?_
      rw [markerAt_drop h.exact hm]
      exact hate)
    (by
      show s0.cfg.markerLength ≤ ((window s).drop e).length
      rw [h3]; omega) c.k c.nop true
  refine ⟨t, ?_, hs0 ▸ hst, htb, ?_⟩
  · have : frameDecoded c e r (requestAnswered s) =
        match evict e s0 with
        | .error f => .fault f
        | .ok s' => resumePush c.k c.nop true (countFrame s') := by
      cases r with
      | fatal => exact absurd rfl hr
      | ok => rw [hs0]; rfl
      | recoverable => rw [hs0]; rfl
    rw [this, hev, hw]
    exact ht
  · rw [hto]
    show ((window s).drop e).length = _
    exact hlen

end Sys2Proof.Machine
end

