-- ==== Sys2Proof/Laws/Cycle.lean ====
section
/-! SUPPORT. What the push/decode cycle, the decoder's answer and a whole step can do from any state whatever, each said once:
the whole-machine rules over states that no run reaches rest on these. -/

namespace Sys2Proof.Machine

/-- What the push/decode cycle keeps from any state whatever, up to its next response or dispatch: it writes only the buffer,
`occ`, the transients, the ports, and the event bits of its records; the records it emits are garbage resets. -/
structure CycleKeeps (s t : State) : Prop where
  cfg : t.cfg = s.cfg
  life : t.life = s.life
  frames : t.frames = s.frames
  cmdPort : t.cmdPort = s.cmdPort
  decReads : t.decReads = s.decReads
  allocOk : t.allocOk = s.allocOk
  inputs : t.inputs = s.inputs
  micro : t.micro = s.micro
  draws : t.draws = s.draws
  records : ∃ gs, t.eventPort = s.eventPort ++ gs ∧ ∀ g ∈ gs, g.event = .garb ∨ g.event = .oversize
  sticky : ∀ i, s.events.getLsbD i = true → t.events.getLsbD i = true
  canonical : Memory.wf s.buf = true → Memory.wf t.buf = true

theorem CycleKeeps.refl (s : State) : CycleKeeps s s :=
  ⟨rfl, rfl, rfl, rfl, rfl, rfl, rfl, rfl, rfl, ⟨[], by simp, by simp⟩, fun _ h => h, fun h => h⟩

theorem CycleKeeps.trans {s t u : State} (h : CycleKeeps s t) (g : CycleKeeps t u) : CycleKeeps s u := by
  obtain ⟨a, ha, ha'⟩ := h.records
  obtain ⟨b, hb, hb'⟩ := g.records
  refine ⟨g.cfg.trans h.cfg, g.life.trans h.life, g.frames.trans h.frames, g.cmdPort.trans h.cmdPort,
    g.decReads.trans h.decReads, g.allocOk.trans h.allocOk, g.inputs.trans h.inputs, g.micro.trans h.micro,
    g.draws.trans h.draws, ⟨a ++ b, by rw [hb, ha, List.append_assoc], ?_⟩, fun i hi => g.sticky i (h.sticky i hi),
    fun hw => g.canonical (h.canonical hw)⟩
  intro r hr
  rcases List.mem_append.mp hr with hr | hr
  · exact ha' r hr
  · exact hb' r hr

/-- Changes to the buffer alone, and to the transients and ports the cycle writes. -/
theorem CycleKeeps.of_buffer {s t : State} (h : t = { s with
      buf := t.buf, occ := t.occ, seq := t.seq, push := t.push, decReq := t.decReq, din := t.din, responses := t.responses,
      requests := t.requests })
    (hw : Memory.wf s.buf = true → Memory.wf t.buf = true) : CycleKeeps s t := by
  refine ⟨?_, ?_, ?_, ?_, ?_, ?_, ?_, ?_, ?_, ⟨[], ?_, by simp⟩, ?_, hw⟩
  · rw [h]
  · rw [h]
  · rw [h]
  · rw [h]
  · rw [h]
  · rw [h]
  · rw [h]
  · rw [h]
  · rw [h]
  · rw [h]; simp
  · intro i hi; rw [h]; exact hi

/-- APPEND writes the buffer and `occ` only (40_buffer_manager.md R100). -/
theorem append_keeps {s s' : State} {d : List Byte} {n : Nat} (h : append d s = .ok (n, s')) : CycleKeeps s s' := by
  simp only [append] at h
  split at h
  · simp at h
  · rename_i s1 hm
    unfold memWrite at hm
    split at hm
    · cases hm; cases h
      exact CycleKeeps.of_buffer rfl fun hw => Memory.wf_writeList hw _ _
    · simp at hm

/-- EVICT writes the buffer and `occ` only (40_buffer_manager.md R102). -/
theorem evict_keeps {s s' : State} {off : Nat} (h : evict off s = .ok s') : CycleKeeps s s' := by
  unfold evict at h
  split at h
  · cases h; exact CycleKeeps.of_buffer rfl fun hw => Memory.wf_shift hw _ _
  · simp at h

/-- DISPATCH writes the request only (42_driver_commands.md R148). -/
theorem dispatch_keeps {s s' : State} {e : Nat} (h : dispatch e s = .ok s') : CycleKeeps s s' := by
  unfold dispatch at h
  split at h
  · simp at h
  · cases h; exact CycleKeeps.of_buffer rfl id

/-- COMPUTE_RANGE evicts at most (41_synchronizer.md R122). -/
theorem computeRange_keeps {s s' : State} {r : RangeResult} (h : computeRange s = .ok (r, s')) : CycleKeeps s s' := by
  unfold computeRange at h
  split at h
  · cases h; exact .refl _
  · rename_i st hf
    simp only at h
    split at h
    · simp at h
    · rename_i ev s1 hev _
      cases h
      split at hev
      · split at hev
        · simp at hev
        · rename_i s2 he
          cases hev; exact evict_keeps he
      · cases hev; exact .refl _
    · rename_i ev s1 e hev _
      cases h
      split at hev
      · split at hev
        · simp at hev
        · rename_i s2 he
          cases hev; exact evict_keeps he
      · cases hev; exact .refl _

/-- A garbage reset emits one GARB or OVERSIZE record (42_driver_commands.md R153). -/
theorem garbageReset_keeps (cls : Classification) (s : State) : CycleKeeps s (garbageReset cls s) := by
  refine ⟨rfl, rfl, rfl, rfl, rfl, rfl, rfl, rfl, rfl, ⟨_, garbageReset_eventPort cls s, ?_⟩, ?_, fun _ => rfl⟩
  · intro g hg
    rw [List.mem_singleton.mp hg]
    by_cases hc : cls = .nosync <;> simp [hc]
  · intro i hi
    rw [garbageReset_events, BitVec.getLsbD_or, hi, Bool.true_or]

theorem respond_keeps (r : Status) (x : Word) (s : State) : CycleKeeps s (respond r x s) := .of_buffer rfl id

/-- What one pass leaves, however it ends. -/
def PassKeeps (s : State) : PassEnd → Prop
  | .done (.next t) => CycleKeeps s t
  | .done (.fault _) => True
  | .done (.refused _) => False
  | .again _ nop t => nop = 0 ∧ CycleKeeps s t

theorem PassKeeps.of_keeps {s s' : State} (h : CycleKeeps s s') {p : PassEnd} (hp : PassKeeps s' p) : PassKeeps s p := by
  match p, hp with
  | .done (.next _), hp => exact h.trans hp
  | .done (.fault _), _ => trivial
  | .done (.refused _), hp => exact hp
  | .again _ _ _, hp => exact ⟨hp.1, h.trans hp.2⟩

/-- Steps 4 to 6 (42_driver_commands.md R152, R153). -/
theorem endOfPass_keeps (cls : Classification) (k nop : Nat) (s : State) : PassKeeps s (endOfPass cls k nop s) := by
  by_cases h : s.occ = s.cfg.capacity
  · rw [endOfPass_full h]; exact ⟨rfl, garbageReset_keeps cls s⟩
  · rw [endOfPass_room h]; exact respond_keeps _ _ _

theorem innerLoop_keeps (k nop : Nat) (prog : Bool) (s : State) : PassKeeps s (innerLoop k nop prog s) := by
  unfold innerLoop
  split
  · trivial
  · rename_i r s' hcr
    have hk := computeRange_keeps hcr
    split
    · split
      · trivial
      · rename_i s'' hd
        exact (hk.trans (dispatch_keeps hd)).trans (.of_buffer rfl id)
    · exact .of_keeps hk (endOfPass_keeps _ _ _ _)

theorem outerPass_keeps (k nop : Nat) (s : State) : PassKeeps s (outerPass k nop s) := by
  unfold outerPass
  split
  · trivial
  · rename_i n s' ha
    have hk : CycleKeeps s { s' with din := s'.din.drop n } := (append_keeps ha).trans (.of_buffer rfl id)
    exact .of_keeps hk (innerLoop_keeps _ _ _ _)

/-- Any number of outer passes (42_driver_commands.md R145). -/
theorem outerLoop_keeps {fuel k nop : Nat} {s t : State} (h : outerLoop fuel k nop s = .next t) : CycleKeeps s t := by
  induction fuel generalizing k nop s with
  | zero => simp [outerLoop] at h
  | succ fuel ih =>
    have hp := outerPass_keeps k nop s
    simp only [outerLoop] at h
    split at h
    · rename_i o ho; rw [ho] at hp; subst h; exact hp
    · rename_i k' nop' s' ho; rw [ho] at hp; exact hp.2.trans (ih h)

theorem resumePush_keeps {k nop : Nat} {prog : Bool} {s t : State} (h : resumePush k nop prog s = .next t) :
    CycleKeeps s t := by
  have hp := innerLoop_keeps k nop prog s
  unfold resumePush at h
  split at h
  · rename_i o ho; rw [ho] at hp; subst h; exact hp
  · rename_i k' nop' s' ho; rw [ho] at hp; exact hp.2.trans (outerLoop_keeps h)

/-- The decoder's answer from any state: the fatal stop, or the cycle goes on from the evicted and counted frame. -/
theorem frameDecoded_next {c : PushLoop} {e : Nat} {r : DecoderResult} {s t : State} (h : frameDecoded c e r s = .next t) :
    (r = .fatal ∧ t = fatalStop .dfatal (BitVec.ofNat 32 e) .fatal (BitVec.ofNat 32 c.k) s) ∨
    (r ≠ .fatal ∧ ∃ s', evict e (if r = .recoverable then raiseEvent .derr (BitVec.ofNat 32 e) s else s) = .ok s' ∧
      CycleKeeps (countFrame s') t) := by
  cases r with
  | fatal => exact .inl ⟨rfl, (Host.Outcome.next.inj h).symm⟩
  | ok =>
    refine .inr ⟨by simp, ?_⟩
    simp only [frameDecoded] at h
    split at h
    · simp at h
    · rename_i s' he; exact ⟨s', he, resumePush_keeps h⟩
  | recoverable =>
    refine .inr ⟨by simp, ?_⟩
    simp only [frameDecoded] at h
    split at h
    · simp at h
    · rename_i s' he; exact ⟨s', he, resumePush_keeps h⟩

/-- What a PUSH leaves: a cycle from the presented payload, or a CMD_ERR (42_driver_commands.md R144). -/
theorem execPush_next {n : BitVec 16} {s t : State} (h : execPush n s = .next t) :
   (s.life = .active ∧ CycleKeeps (presentPayload n.toNat s) t) ∨ (s.life ≠ .active ∧ t = commandError (commandWord (.push n)) s) := by
  unfold execPush at h
  split at h
  · rename_i ha; exact .inl ⟨ha, outerLoop_keeps h⟩
  · rename_i ha; exact .inr ⟨ha, (Host.Outcome.next.inj h).symm⟩

/-- Everything a step can do, by what it ran: a command, a hardware reset, the answer to a PUSH's dispatch, or an act that writes
only ports and the model's own fields. -/
theorem step_effect_cases {s t : State} (h : step s = .next t) :
  (∃ c rest, s.seq = .ready ∧ s.cmdPort = c :: rest ∧
     (((decode c.word = .start ∧ s.life ≠ .active) ∧ (t = startActive (accept c rest s) ∨ t = fatalStop .initerr 0 .initErr 0 (accept c rest s))) ∨
      (decode c.word = .stop ∧ (t = respond .ok 0 (accept c rest s) ∨ t = respond .ok 0 (emptyBuffer {accept c rest s with life := .stopped}))) ∨
      (∃ n, decode c.word = .push n ∧ CycleKeeps (presentPayload n.toNat (accept c rest s)) t) ∨
      (∃ m, decode c.word = .ack m ∧ t = respond .ok 0 {accept c rest s with events := clearEvents s.events m}) ∨
      (∃ x, t = respond .ok x (accept c rest s)) ∨
      (∃ w, t = commandError w (accept c rest s)))) ∨
  (∃ i rest, nextCommand s = none ∧ s.inputs = i :: rest ∧ i = .hardwareReset ∧ t = hardReset {s with inputs := rest}) ∨
  (∃ code rest e c, nextCommand s = none ∧ s.inputs = .decoderResponse code :: rest ∧ s.decReq = some e ∧ s.push = some c ∧ frameDecoded c e (decoderResult code) (requestAnswered {s with inputs := rest}) = .next t) ∨
  (t = { s with inputs := t.inputs, cmdPort := t.cmdPort, decReq := t.decReq, micro := t.micro, decReads := t.decReads, draws := t.draws, allocOk := t.allocOk}) := by
  obtain ⟨_, ⟨c, rest, hs, hq, hx⟩ | ⟨_, _, rfl⟩ | ⟨hn, i, rest, hi, hr⟩⟩ := step_next_cases h
  · refine .inl ⟨c, rest, hs, hq, ?_⟩
    rcases decode_cases c.word with e|e|⟨n,e⟩|⟨m,e⟩|⟨j,e⟩|e <;> rw [e] at hx
    · have := Host.Outcome.next.inj hx; subst this
      by_cases hl : s.life = .active
      · exact .inr (.inr (.inr (.inr (.inr ⟨_, if_pos hl⟩))))
      · refine .inl ⟨⟨e, hl⟩, ?_⟩
        rw [if_neg (by exact hl)]
        split
        · exact .inl rfl
        · exact .inr rfl
    · have := Host.Outcome.next.inj hx; subst this
      refine .inr (.inl ⟨e, ?_⟩)
      split
      · exact .inr rfl
      · exact .inl rfl
    · rcases execPush_next hx with ⟨_, h⟩ | ⟨_, rfl⟩
      · exact .inr (.inr (.inl ⟨_, e, h⟩))
      · exact .inr (.inr (.inr (.inr (.inr ⟨_, rfl⟩))))
    · have := Host.Outcome.next.inj hx; subst this
      exact .inr (.inr (.inr (.inl ⟨m, e, rfl⟩)))
    · simp only [exec, execRdreg] at hx
      split at hx
      · have := Host.Outcome.next.inj hx; subst this
        exact .inr (.inr (.inr (.inr (.inl ⟨_, rfl⟩))))
      · have := Host.Outcome.next.inj hx; subst this
        exact .inr (.inr (.inr (.inr (.inr ⟨_, rfl⟩))))
    · have := Host.Outcome.next.inj hx; subst this
      exact .inr (.inr (.inr (.inr (.inr ⟨_, rfl⟩))))
  · exact .inr (.inr (.inr rfl))
  · cases i with
    | command c => cases hr; exact .inr (.inr (.inr rfl))
    | lateDecoderResponse c => cases hr; exact .inr (.inr (.inr rfl))
    | decoderRead c => cases hr; exact .inr (.inr (.inr rfl))
    | allocOk c => cases hr; exact .inr (.inr (.inr rfl))
    | hardwareReset => cases hr; exact .inr (.inl ⟨_, rest, hn, hi, rfl, rfl⟩)
    | decoderResponse code =>
      simp only [receive, decoderResponds] at hr
      split at hr
      · cases hr; exact .inr (.inr (.inr rfl))
      · rename_i e he
        split at hr
        · cases hr; exact .inr (.inr (.inr rfl))
        · rename_i c hp
          exact .inr (.inr (.inl ⟨code, rest, e, c, hn, hi, he, hp, hr⟩))

end Sys2Proof.Machine
end

