-- ==== Sys2Proof/Laws/HostSide.lean ====
section
/-! SUPPORT. One command run to its response, said once: the decoder's answers to a waiting PUSH (42_driver_commands.md R149 to
R157). -/

namespace Sys2Proof.Machine

/-- The codes that let a PUSH go on (30_encoding.md R79). -/
theorem decoderResult_ne_fatal : ∀ c : BitVec 2, decoderResult c ≠ .fatal ↔ c.toNat < 2 := by decide

/-- The invariant says nothing of the environment's script. -/
theorem Inv.withInputs {s : State} (h : Inv s) (l : List Input) : Inv { s with inputs := l } := ⟨h.legal, h.exact, h.bound, h.inactive, h.reserved, h.ready, h.rest, h.busy⟩

/-- Nothing outstanding: no answer is taken. -/
theorem answerAll_none {s : State} (h : s.decReq = none) (cs : List (BitVec 2)) : answerAll cs s = some (s, cs) := by
  cases cs <;> simp [answerAll, h]

/-- A PUSH that waited in `s` has run to its response `r` in `t`, after the further dispatches `ds` and the records `gs`
(42_driver_commands.md R149 to R152). -/
structure Answered (s : State) (c : PushLoop) (t : State) (ds : List DecoderRequest) (gs : List EventRecord) (r : Response) : Prop where
  inv : Inv t
  cfg : t.cfg = s.cfg
  ready : t.seq = .ready
  resp : t.responses = s.responses ++ [r]
  req : t.requests = s.requests ++ ds
  ev : t.eventPort = s.eventPort ++ gs
  ending : (r = ⟨.ok, BitVec.ofNat 32 c.k⟩ ∧ t.life = .active ∧ ∀ g ∈ gs, g.event = .derr) ∨
    (r = ⟨.fatal, BitVec.ofNat 32 c.k⟩ ∧ t.life = .stopped ∧ t.occ = 0 ∧ (∃ g ∈ gs, g.event = .dfatal) ∧ ∀ g ∈ gs, g.event = .derr ∨ g.event = .dfatal)

/-- One answer ends the PUSH, or brings its next dispatch with at least `L` bytes fewer in the buffer. -/
theorem answer_cases {s : State} {e : Nat} {c : PushLoop} (code : BitVec 2) (h : Inv s) (hb : s.seq = .busy) (hd : s.decReq = some e) (hp : s.push = some c) :
  (∃ t gs r, step { s with inputs := .decoderResponse code :: s.inputs } = .next t ∧ t.decReq = none ∧ Answered s c t [] gs r) ∨
  (∃ t c' e' d gs, step { s with inputs := .decoderResponse code :: s.inputs } = .next t ∧ Inv t ∧ t.seq = .busy ∧ t.decReq = some e' ∧ t.push = some c' ∧ c'.k = c.k ∧ t.cfg = s.cfg ∧ t.occ + s.cfg.markerLength ≤ s.occ ∧ t.responses = s.responses ∧ t.requests = s.requests ++ [d] ∧ t.eventPort = s.eventPort ++ gs ∧ ∀ g ∈ gs, g.event = .derr) := by
  have hfp : FramePending e s := by
    obtain ⟨_,_,e',h1⟩ := h.busy hb
    have := h1.1; rw [hd] at this; cases this; exact h1
  have hst : step { s with inputs := .decoderResponse code :: s.inputs } = frameDecoded c e (decoderResult code) (requestAnswered s) := by
    rw [step_receives (s := { s with inputs := .decoderResponse code :: s.inputs }) h.legal (nextCommand_busy hb) rfl]
    simp only [receive, decoderResponds, hd, hp]
    cases s; simp_all [requestAnswered]
  by_cases hf : decoderResult code = .fatal
  · refine .inl ⟨fatalStop .dfatal (BitVec.ofNat 32 e) .fatal (BitVec.ofNat 32 c.k) (requestAnswered s), [⟨.dfatal, BitVec.ofNat 32 e⟩], ⟨.fatal, BitVec.ofNat 32 c.k⟩, by rw [hst, hf]; rfl, rfl, ?_⟩
    have hL := (configLegal_iff _).mp h.legal
    refine ⟨⟨h.legal, ⟨rfl, rfl⟩, Nat.zero_le _, fun _ => rfl, ?_, fun _ => ⟨rfl, rfl⟩, fun _ hh => by simp at hh, fun hh => by simp at hh⟩, rfl, rfl, rfl, by simp, rfl, .inr ⟨rfl, rfl, rfl, by simp, by simp⟩⟩
    rw [fatalStop_events, BitVec.getLsbD_or, requestAnswered_events, h.reserved, eventBit_reserved]; rfl
  · obtain ⟨t, ht, hs, htb, hto⟩ := frameDecoded_continues h hfp hb c hf
    have hcfg : t.cfg = s.cfg := by rw [hs.cfg]; simp only [countFrame_cfg, withWindow_cfg]; split <;> rfl
    obtain ⟨gs, hg1, hg2⟩ : ∃ gs, t.eventPort = s.eventPort ++ gs ∧ ∀ g ∈ gs, g.event = .derr := by
      have := hs.records
      simp only [countFrame_eventPort, withWindow_eventPort, List.append_nil] at this
      split at this
      · exact ⟨_, this, by simp⟩
      · exact ⟨[], by simpa using this, by simp⟩
    have hreq : (countFrame (withWindow ((window s).drop e) (if decoderResult code = .recoverable then raiseEvent .derr (BitVec.ofNat 32 e) (requestAnswered s) else requestAnswered s))).requests = s.requests := by
      simp only [countFrame_requests, withWindow_requests]; split <;> rfl
    have hrsp : (countFrame (withWindow ((window s).drop e) (if decoderResult code = .recoverable then raiseEvent .derr (BitVec.ofNat 32 e) (requestAnswered s) else requestAnswered s))).responses = s.responses := by
      simp only [countFrame_responses, withWindow_responses]; split <;> rfl
    rcases hs.ending with ⟨h1,h2,h3⟩ | ⟨h1,h2,⟨x,y,h3⟩,h4,e2,h5,h6⟩
    · refine .inl ⟨t, gs, ⟨.ok, BitVec.ofNat 32 c.k⟩, hst.trans ht, (hs.inv.ready h1).2, hs.inv, hcfg, h1, by rw [h2, hrsp, Nat.add_zero], by rw [h3, hreq]; simp, hg1, .inl ⟨rfl, hs.life, hg2⟩⟩
    · refine .inr ⟨t, ⟨c.k+0, x, y⟩, e2, ⟨rangeField 0, rangeField e2, (window t).take e2⟩, gs, hst.trans ht, hs.inv, h1, h5, h3, rfl, hcfg, ?_, by rw [h2, hrsp], by rw [h6, hreq], hg1, hg2⟩
      obtain ⟨_, a, b, _⟩ := hfp
      omega

/-- The answers run a waiting PUSH to its response; `occ / L` of them are enough (42_driver_commands.md R157). -/
theorem answerAll_answered {codes : List (BitVec 2)} : ∀ {s : State} {c : PushLoop}, Inv s → s.seq = .busy → s.push = some c →
   (∀ t rest, answerAll codes s = some (t, rest) → ∃ ds gs r, Answered s c t ds gs r) ∧
   (s.occ / s.cfg.markerLength ≤ codes.length → ∃ t rest ds gs r, answerAll codes s = some (t, rest) ∧ Answered s c t ds gs r ∧ (ds.length + 1) * s.cfg.markerLength ≤ s.occ ∧ (∀ g ∈ gs, g.event = .derr ∨ g.event = .dfatal)) := by
  induction codes with
  | nil =>
    intro s c h hb hp
    obtain ⟨_,_,e,hfp⟩ := h.busy hb
    have hL := (configLegal_iff _).mp h.legal
    refine ⟨fun t rest ht => by simp [answerAll, hfp.1] at ht, fun hl => ?_⟩
    obtain ⟨_, a, b, _⟩ := hfp
    have : s.occ < s.cfg.markerLength := by
      have h0 : s.occ / s.cfg.markerLength = 0 := by simpa using hl
      rcases Nat.div_eq_zero_iff.mp h0 with h0|h0 <;> omega
    omega
  | cons code cs ih =>
    intro s c h hb hp
    obtain ⟨_,_,e,hfp⟩ := h.busy hb
    have hd := hfp.1
    have hL := (configLegal_iff _).mp h.legal
    obtain ⟨_, ha, hbb, _⟩ := hfp
    rcases answer_cases code h hb hd hp with ⟨t1, gs, r, hs, hn, hA⟩ | ⟨t1, c', e', d, gs, hs, hi, hb1, hd1, hp1, hk, hcfg, hocc, hr1, hr2, hr3, hr4⟩
    · have haa : answerAll (code :: cs) s = some (t1, cs) := by
        rw [answerAll, if_neg (by simp [hd]), hs]; exact answerAll_none hn cs
      refine ⟨fun t rest ht => ?_, fun _ => ⟨t1, cs, [], gs, r, haa, hA, ?_, ?_⟩⟩
      · rw [haa] at ht; cases ht; exact ⟨_, _, _, hA⟩
      · simp; omega
      · rcases hA.ending with ⟨_,_,x⟩ | ⟨_,_,_,_,x⟩
        · exact fun g hg => .inl (x g hg)
        · exact x
    · have haa : answerAll (code :: cs) s = answerAll cs t1 := by
        rw [answerAll, if_neg (by simp [hd]), hs]
      obtain ⟨I1, I2⟩ := ih hi hb1 hp1
      have lift : ∀ {t ds gs' r}, Answered t1 c' t ds gs' r → Answered s c t (d :: ds) (gs ++ gs') r := by
        intro t ds gs' r A
        refine ⟨A.inv, A.cfg.trans hcfg, A.ready, by rw [A.resp, hr1], by rw [A.req, hr2]; simp, by rw [A.ev, hr3]; simp, ?_⟩
        rcases A.ending with ⟨x1,x2,x3⟩ | ⟨x1,x2,x3,⟨g,x4,x5⟩,x6⟩
        · refine .inl ⟨by rw [x1, hk], x2, fun g hg => ?_⟩
          rcases List.mem_append.mp hg with hg|hg
          · exact hr4 g hg
          · exact x3 g hg
        · refine .inr ⟨by rw [x1, hk], x2, x3, ⟨g, List.mem_append.mpr (.inr x4), x5⟩, fun g hg => ?_⟩
          rcases List.mem_append.mp hg with hg|hg
          · exact .inl (hr4 g hg)
          · exact x6 g hg
      refine ⟨fun t rest ht => ?_, fun hl => ?_⟩
      · rw [haa] at ht
        obtain ⟨ds, gs', r, A⟩ := I1 t rest ht
        exact ⟨_, _, _, lift A⟩
      · have : t1.occ / t1.cfg.markerLength ≤ cs.length := by
          rw [hcfg]
          have h2 : (t1.occ + s.cfg.markerLength) / s.cfg.markerLength ≤ s.occ / s.cfg.markerLength := Nat.div_le_div_right hocc
          rw [Nat.add_div_right _ (by omega)] at h2
          simp at hl; omega
        obtain ⟨t, rest, ds, gs', r, x1, A, x2, x3⟩ := I2 this
        refine ⟨t, rest, _, _, r, haa.trans x1, lift A, ?_, ?_⟩
        · rw [hcfg] at x2
          simp only [List.length_cons]
          rw [Nat.add_mul, Nat.one_mul]; omega
        · intro g hg
          rcases List.mem_append.mp hg with hg|hg
          · exact .inl (hr4 g hg)
          · exact x3 g hg

end Sys2Proof.Machine
end

