-- ==== Sys2Proof/Laws/PerInstr.lean ====
section
/-! SUPPORT. Facts about every instruction as syntax, one lemma per constructor. -/

namespace Sys2Proof.Laws.HostIssuable

/-- Exactly the host commands have a command word: "No host word decodes to it" of each micro-operation
(30_encoding.md R85). -/
def Statement (i : Instr) : Prop := (encode i).isSome = isHostCommand i

theorem start : Statement .start := rfl
theorem stop : Statement .stop := rfl
theorem push (n : BitVec 16) : Statement (.push n) := rfl
theorem ack (mask : BitVec 8) : Statement (.ack mask) := rfl
theorem rdreg (idx : BitVec 4) : Statement (.rdreg idx) := rfl
theorem illegal (w : Word) : Statement (.illegal w) := rfl
theorem append (d : List Byte) : Statement (.append d) := rfl
theorem evict (off : Nat) : Statement (.evict off) := rfl
theorem reset : Statement .reset := rfl
theorem findMarker (origin : Nat) : Statement (.findMarker origin) := rfl
theorem computeRange : Statement .computeRange := rfl
theorem validate (first last : Int) : Statement (.validate first last) := rfl
theorem dispatch (e : Nat) : Statement (.dispatch e) := rfl

end Sys2Proof.Laws.HostIssuable
end

