-- ==== Sys2Proof/Tests/Slice0.lean ====
section
/-! SUPPORT. Tests of the model, their expected values from 95_test_vectors.md and the encodings of 30_encoding.md, and for each
statement with hypotheses a concrete witness that meets them. -/

namespace Sys2Proof.Tests

open Sys2Proof Sys2Proof.Machine

/-! ### Small states under CFG-B (`C = 8`, `M = AB CD`) -/

/-- Between commands, `Active`, with the given buffer. -/
def active (w : List Byte) : State := { State.reset with life := .active, buf := Memory.ofBytes 0 w, occ := w.length }

/-- A PUSH waits for the decoder's answer on `AB CD 01`, with `AB CD 02` behind it. -/
def waitingState (inputs : List Input) : State :=
  { active [0xAB, 0xCD, 0x01, 0xAB, 0xCD, 0x02] with
    seq := .busy, decReq := some 3, push := some ⟨6, 0, true⟩, requests := [⟨0, 3, [0xAB, 0xCD, 0x01]⟩], inputs := inputs }

/-- A request of DISPATCH run by itself is outstanding. -/
def dispatchedState (inputs : List Input) : State :=
  { active [0xAB, 0xCD, 0x01] with decReq := some 3, requests := [⟨0, 3, [0xAB, 0xCD, 0x01]⟩], inputs := inputs }

/-- What an outcome's next state shows under `f`. -/
def see {α : Type} (f : State → α) : Host.Outcome State Fault Refusal → Option α
  | .next s => some (f s)
  | .fault _ => none
  | .refused _ => none

/-- The fault of an outcome. -/
def faultOf : Host.Outcome State Fault Refusal → Option Fault
  | .fault f => some f
  | .next _ => none
  | .refused _ => none

/-- A vector's result, as 95_test_vectors.md writes it. -/
structure VectorResult where
  responses : List Response
  frames : List (List Byte)
  records : List EventRecord
  buffer : List Byte
  counted : BitVec 32
  events : BitVec 8
  life : Life
  deriving DecidableEq, Repr

def vectorOf (s : State) : VectorResult :=
  ⟨s.responses, s.requests.map DecoderRequest.frame, s.eventPort, window s, s.frames, s.events, s.life⟩

/-- The result of one command run to its response. -/
def result (o : Option (State × List (BitVec 2))) : Option VectorResult := o.map fun r => vectorOf r.1

/-! ### WellFormed refuses an ill-formed term of each check -/

theorem test_wellFormed_refuses :
    wellFormed (.illegal 0x10000000) = false ∧ (∀ d, d.length = 65536 → wellFormed (.append d) = false) ∧
    wellFormed (.evict (2 ^ 31)) = false ∧ wellFormed (.findMarker (2 ^ 31)) = false ∧
    wellFormed (.validate (-2 ^ 31 - 1) 0) = false ∧ wellFormed (.validate 0 (2 ^ 31)) = false ∧
    wellFormed (.dispatch 0) = false ∧ wellFormed (.dispatch (2 ^ 31)) = false := by
  refine ⟨by decide, fun d h => ?_, by decide, by decide, by decide, by decide, by decide, by decide⟩
  simp [wellFormed, h]

theorem test_wellFormed_accepts :
    wellFormed (.illegal 0x10000001) = true ∧ wellFormed (.append []) = true ∧ wellFormed (.evict (2 ^ 31 - 1)) = true ∧
    wellFormed (.findMarker 0) = true ∧ wellFormed (.validate (-2 ^ 31) (2 ^ 31 - 1)) = true ∧
    wellFormed (.dispatch 1) = true ∧ wellFormed (.dispatch (2 ^ 31 - 1)) = true := by decide

/-! ### Decoding: words written out from 30_encoding.md R71 to R74 (95_test_vectors.md L2-1) -/

/-- Format N: opcode `0001`, bits 27..0 zero. -/
theorem test_decode_start : decode 0b0001_0000000000000000000000000000 = .start := by decide
/-- Format N: opcode `0010`, bits 27..0 zero. -/
theorem test_decode_stop : decode 0b0010_0000000000000000000000000000 = .stop := by decide
/-- Format P: opcode `0011`, bits 27..16 zero, `N = w[15:0]`. -/
theorem test_decode_push : decode 0b0011_000000000000_1000000000000001 = .push 0x8001 := by decide
/-- Format A: opcode `0100`, bits 27..8 zero, `mask = w[7:0]`. -/
theorem test_decode_ack : decode 0b0100_00000000000000000000_10000001 = .ack 0x81 := by decide
/-- Format R: opcode `0101`, bits 27..4 zero, `idx = w[3:0]`. -/
theorem test_decode_rdreg : decode 0b0101_000000000000000000000000_1001 = .rdreg 9 := by decide
/-- A reserved bit set, and the reserved opcodes. -/
theorem test_decode_illegal :
    decode 0x10000001 = .illegal 0x10000001 ∧ decode 0x28000000 = .illegal 0x28000000 ∧
    decode 0x30010000 = .illegal 0x30010000 ∧ decode 0x3FFF0001 = .illegal 0x3FFF0001 ∧
    decode 0x40000100 = .illegal 0x40000100 ∧ decode 0x50000010 = .illegal 0x50000010 ∧
    decode 0 = .illegal 0 ∧ decode 0x60000000 = .illegal 0x60000000 ∧ decode 0xFFFFFFFF = .illegal 0xFFFFFFFF := by decide
/-- The words a micro-operation does not have (30_encoding.md R85). -/
theorem test_encode_internal :
    encode (.append [1]) = none ∧ encode (.evict 1) = none ∧ encode .reset = none ∧ encode (.findMarker 0) = none ∧
    encode .computeRange = none ∧ encode (.validate 0 1) = none ∧ encode (.dispatch 1) = none := by decide
theorem test_decodeTableWord :
    decodeTableWord 32 0x4000007F = some (.ack 0x7F) ∧ decodeTableWord 0 0 = none ∧ decodeTableWord 32 (2 ^ 32) = none := by
  decide

/-! ### The next step runs the placed word -/

theorem test_withFetchWord_push :
    see (fun t => (t.responses, t.din)) (step ((active []).withFetchWord 32 0x30000003)) = some ([⟨.ok, 3⟩], []) := by decide
theorem test_withFetchWord_start :
    see (fun t => (t.life, t.responses)) (step (State.reset.withFetchWord 32 0x10000000)) = some (.active, [⟨.ok, 0⟩]) := by
  decide

/-! ### Host commands (95_test_vectors.md L2-5) -/

/-- V15. -/
theorem test_start_while_active : see (fun t => (t.life, t.events, t.eventPort, t.responses)) (exec .start (active [])) =
    some (.active, 0x20, [⟨.cmderr, 0x10000000⟩], [⟨.cmdErr, 0⟩]) := by decide
/-- R141 with the draw `alloc_ok = 0`. -/
theorem test_start_without_memory :
    see (fun t => (t.life, t.events, t.eventPort, t.responses)) (exec .start { State.reset with allocOk := false }) =
      some (.stopped, 0x10, [⟨.initerr, 0⟩], [⟨.initErr, 0⟩]) := by decide
theorem test_stop_discards : see (fun t => (t.life, t.occ, t.buf, t.responses)) (exec .stop (active [1, 2])) =
    some (.stopped, 0, [], [⟨.ok, 0⟩]) := by decide
theorem test_ack_clears_one_bit : see (fun t => (t.events, t.responses)) (exec (.ack 0x81) { State.reset with events := 0x21 }) =
    some (0x20, [⟨.ok, 0⟩]) := by decide
theorem test_rdreg_occ : see State.responses (exec (.rdreg 1) (active [1, 2, 3])) = some [⟨.ok, 3⟩] := by decide
theorem test_rdreg_reserved : see (fun t => (t.eventPort, t.responses)) (exec (.rdreg 6) State.reset) =
    some ([⟨.cmderr, 0x50000006⟩], [⟨.cmdErr, 0⟩]) := by decide
theorem test_illegal : see (fun t => (t.events, t.eventPort, t.responses)) (exec (.illegal 0x28000000) State.reset) =
    some (0x20, [⟨.cmderr, 0x28000000⟩], [⟨.cmdErr, 0⟩]) := by decide

/-! ### PUSH (95_test_vectors.md L2-4) -/

/-- V14: PUSH in Idle takes no byte. -/
theorem test_push_idle : result (transact (assemble (.push 2 [0xAB, 0xCD])) [] State.reset) =
    some ⟨[⟨.cmdErr, 0⟩], [], [⟨.cmderr, 0x30000002⟩], [], 0, 0x20, .idle⟩ := by decide
/-- V1: a full buffer with no marker. -/
theorem test_push_garbage : result (transact (pushCommand [0x11, 0x22, 0x33, 0x44, 0x55, 0x66, 0x77, 0x88]) [] (active [])) =
    some ⟨[⟨.ok, 8⟩], [], [⟨.garb, 8⟩], [], 0, 0x01, .active⟩ := by decide
/-- V2: a full buffer that begins with a marker. -/
theorem test_push_oversize : result (transact (pushCommand [0xAB, 0xCD, 0x11, 0x22, 0x33, 0x44, 0x55, 0x66]) [] (active [])) =
    some ⟨[⟨.ok, 8⟩], [], [⟨.oversize, 8⟩], [], 0, 0x02, .active⟩ := by decide
/-- V9: two frames, and the early return with four bytes not taken. -/
theorem test_push_early_return :
    result (transact (pushCommand [0xAB, 0xCD, 1, 0xAB, 0xCD, 2, 0xAB, 0xCD, 3, 4, 5, 6]) [0, 0] (active [])) =
      some ⟨[⟨.ok, 8⟩], [[0xAB, 0xCD, 1], [0xAB, 0xCD, 2]], [], [0xAB, 0xCD], 2, 0, .active⟩ := by decide
/-- V11: a recoverable answer. -/
theorem test_push_recoverable : result (transact (pushCommand [0xAB, 0xCD, 1, 0xAB, 0xCD, 2]) [1] (active [])) =
    some ⟨[⟨.ok, 6⟩], [[0xAB, 0xCD, 1]], [⟨.derr, 3⟩], [0xAB, 0xCD, 2], 1, 0x04, .active⟩ := by decide
/-- V12: a fatal answer. -/
theorem test_push_fatal : result (transact (pushCommand [0xAB, 0xCD, 1, 0xAB, 0xCD, 2, 0xAB, 0xCD]) [2] (active [])) =
    some ⟨[⟨.fatal, 8⟩], [[0xAB, 0xCD, 1]], [⟨.dfatal, 3⟩], [], 0, 0x08, .stopped⟩ := by decide
/-- V24: `frames` saturates. -/
theorem test_push_saturates :
    result (transact (pushCommand [0xAB, 0xCD, 1, 0xAB, 0xCD, 2]) [0] { active [] with frames := 0xFFFFFFFF }) =
      some ⟨[⟨.ok, 6⟩], [[0xAB, 0xCD, 1]], [], [0xAB, 0xCD, 2], 0xFFFFFFFF, 0, .active⟩ := by decide

/-! ### Micro-operations (95_test_vectors.md L2-2, L2-3) -/

theorem test_append : see (fun t => (t.micro, window t, t.occ)) (exec (.append [7, 8, 9]) (active [1, 2, 3, 4, 5, 6])) =
    some (some (.count 2), [1, 2, 3, 4, 5, 6, 7, 8], 8) := by decide
theorem test_evict : see (fun t => (t.buf, t.occ)) (exec (.evict 2) (active [1, 2, 3, 4, 5])) =
    some ([(0, 3), (1, 4), (2, 5)], 3) := by decide
theorem test_evict_too_much : faultOf (exec (.evict 6) (active [1, 2, 3, 4, 5])) = some (.evictBeyondOccupied 6 5) := by decide
theorem test_reset : see (fun t => (t.buf, t.occ)) (exec .reset (active [1, 2, 3, 4, 5])) = some ([], 0) := by decide
theorem test_findMarker_from :
    see State.micro (exec (.findMarker 3) (active [0x11, 0xAB, 0xCD, 0xAB, 0xCD])) = some (some (.marker (some 3))) := by decide
theorem test_findMarker_cut_off :
    see State.micro (exec (.findMarker 0) (active [0x11, 0x22, 0xAB])) = some (some (.marker none)) := by decide
theorem test_computeRange_valid :
    see (fun t => (t.micro, window t)) (exec .computeRange (active [0x11, 0xAB, 0xCD, 0x33, 0xAB, 0xCD, 0x44])) =
      some (some (.range ⟨.valid, ⟨0, 3⟩, true⟩), [0xAB, 0xCD, 0x33, 0xAB, 0xCD, 0x44]) := by decide
theorem test_computeRange_incomplete :
    see (fun t => (t.micro, window t)) (exec .computeRange (active [0x11, 0x22, 0xAB, 0xCD, 0x33])) =
      some (some (.range ⟨.incomplete, ⟨0, -1⟩, true⟩), [0xAB, 0xCD, 0x33]) := by decide
theorem test_validate_at_capacity :
    validate 8 ⟨0, 8⟩ = true ∧ validate 8 ⟨0, 9⟩ = false ∧ validate 8 ⟨0, 0⟩ = false ∧ validate 8 ⟨0, -1⟩ = false := by decide
theorem test_validate_signed : see State.micro (exec (.validate (-1) 5) (active [])) = some (some (.valid false)) := by decide
theorem test_dispatch : see (fun t => (t.decReq, t.requests)) (exec (.dispatch 3) (active [0xAB, 0xCD, 1, 0xAB, 0xCD])) =
    some (some 3, [⟨0, 3, [0xAB, 0xCD, 1]⟩]) := by decide
theorem test_dispatch_answered :
    see (fun t => (t.decReq, t.micro)) (step (dispatchedState [.decoderResponse 3])) = some (none, some (.decoded .fatal)) := by
  decide

/-! ### The environment -/

/-- A hardware reset in the middle of a PUSH, and the late answer (70_reset_and_hazards.md R200). -/
theorem test_hardware_reset : see (fun t => (t.life, t.occ, t.seq, t.decReq, t.push)) (step (waitingState [.hardwareReset])) =
    some (.idle, 0, .ready, none, none) := by decide
theorem test_decoder_read : see State.decReads (step (waitingState [.decoderRead 2])) = some [0x01] := by decide
/-- The FrameRange sentinel at a port (30_encoding.md R81), and `cfg_marker` with `M[0]` lowest (30_encoding.md R70). -/
theorem test_ports : rangeField (-1) = 0xFFFFFFFF ∧ markerPort Config.cfgB = 0xCDAB ∧ outChunkPort State.reset = 0 ∧
    evtPending (active []) = false ∧ evtPending { active [] with events := 0x40 } = true ∧
    statusCode .fatal = 3 := by decide

/-! ### Witnesses: states and operands that meet the hypotheses of each statement

States of a running system come first: they are what `Inv` and `Framed` ask for. -/

theorem witness_inv_idle : Inv State.reset :=
  ⟨by decide, by decide, by decide, fun _ => rfl, by decide, fun _ => ⟨rfl, rfl⟩, fun _ => nofun, nofun⟩

/-- Between commands with an incomplete frame, one byte below a full buffer. -/
theorem witness_inv_active : Inv (active [0xAB, 0xCD, 1, 2, 3, 4, 5]) :=
  ⟨by decide, by decide, by decide, fun h => absurd rfl h, by decide, fun _ => ⟨rfl, rfl⟩, fun _ _ => by decide,
    nofun⟩

theorem witness_inv_empty : Inv (active []) :=
  ⟨by decide, by decide, by decide, fun h => absurd rfl h, by decide, fun _ => ⟨rfl, rfl⟩, fun _ _ => by decide,
    nofun⟩

theorem witness_inv_waiting (inputs : List Input) : Inv (waitingState inputs) :=
  ⟨(by decide : configLegal Config.cfgB = true), ⟨rfl, rfl⟩, (by decide : 6 ≤ 8), fun h => absurd rfl h,
    (by decide : (0 : BitVec 8).getLsbD 7 = false), nofun, nofun,
    fun _ => ⟨rfl, rfl, 3, rfl, (by decide : 2 ≤ 3), (by decide : 3 + 2 ≤ 6), rfl, rfl⟩⟩

theorem witness_framed_waiting (inputs : List Input) : Framed (waitingState inputs) := by
  refine ⟨?_, ?_⟩
  · intro r hr
    rw [List.mem_singleton.mp hr]
    exact ⟨rfl, rfl, (by decide : 2 ≤ 3), (by decide : 3 + 2 ≤ 8), rfl⟩
  · intro e he
    obtain rfl : 3 = e := Option.some.inj he
    exact ⟨_, rfl, rfl, rfl⟩

theorem witness_DecodeOfEncode :
    (wellFormed (.push 0xFFFF) = true ∧ encode (.push 0xFFFF) = some 0x3000FFFF) ∧
    (wellFormed (.illegal 0x50000010) = true ∧ encode (.illegal 0x50000010) = some 0x50000010) := by decide

theorem witness_MicroOperationsAreNotIssuable : isHostCommand (.append []) = false := rfl

theorem witness_StepRunsAcceptedCommand :
    configLegal (active []).cfg = true ∧ (active []).seq = .ready ∧
    ({ active [] with cmdPort := [⟨0x10000000, []⟩] } : State).cmdPort = ⟨0x10000000, []⟩ :: [] := by decide

theorem witness_CommandWaitsWhileBusy :
    let s := waitingState [.command ⟨0x20000000, []⟩]
    configLegal s.cfg = true ∧ s.seq = .busy ∧ s.inputs = .command ⟨0x20000000, []⟩ :: [] := by decide

/-- The smallest legal capacity `2L`, one byte less, and the largest capacity and one byte more (R7). -/
theorem witness_IllegalConfigurationRefused :
    configLegal { Config.cfgB with capacity := 4 } = true ∧ configLegal { Config.cfgB with capacity := 3 } = false ∧
    configLegal { Config.cfgB with capacity := 2 ^ 31 - 1 } = true ∧ configLegal { Config.cfgB with capacity := 2 ^ 31 } = false ∧
    configLegal { Config.cfgB with markerLength := 0, marker := [] } = false ∧
    configLegal { Config.cfgB with marker := [1] } = false := by decide

theorem witness_StartResult :
    (active []).life = .active ∧ (State.reset.life ≠ .active ∧ State.reset.allocOk = true) ∧
    (({ State.reset with life := .stopped, allocOk := false } : State).life ≠ .active ∧
      ({ State.reset with life := .stopped, allocOk := false } : State).allocOk = false) := by decide

theorem witness_StopResult : (active [1]).life = .active ∧ State.reset.life ≠ .active ∧
    (∃ t, exec .stop (active [1]) = .next t) ∧
    (configLegal (waitingState []).cfg = true ∧ (waitingState []).seq = .busy ∧ decode 0x20000000 = .stop) :=
  ⟨by decide, by decide, ⟨_, rfl⟩, by decide⟩

theorem witness_RdregReadsItsRegister :
    State.reset.life = .idle ∧ (active []).life = .active ∧ ({ State.reset with life := .stopped } : State).life = .stopped ∧
    6 ≤ (6 : BitVec 4).toNat ∧ 6 ≤ (15 : BitVec 4).toNat := by decide

theorem witness_IllegalAndWrongStateCommands : (active []).life = .active ∧ State.reset.life ≠ .active ∧
    6 ≤ (15 : BitVec 4).toNat := by decide

/-- An empty and a full buffer; what is appended at the edge, and beside it. -/
theorem witness_AppendTakesWhatFits :
    (active []).occ ≤ (active []).cfg.capacity ∧
    (active [1, 2, 3, 4, 5, 6, 7, 8]).occ ≤ (active [1, 2, 3, 4, 5, 6, 7, 8]).cfg.capacity ∧
    1 < min [7, 8, 9].length ((active [1, 2, 3, 4, 5, 6]).cfg.capacity - (active [1, 2, 3, 4, 5, 6]).occ) := by decide

theorem witness_EvictShiftsTheRest : 5 ≤ (active [1, 2, 3, 4, 5]).occ ∧ (active [1, 2, 3, 4, 5]).occ < 6 := by decide

theorem witness_ResetIsEvictionOfEverything : BufferExact (active [1, 2, 3, 4, 5, 6, 7, 8]) := by decide

theorem witness_FindMarkerAnswersLowestMatch :
    findMarker 1 (active [0x11, 0xAB, 0xCD]) = some 1 ∧ findMarker 2 (active [0x11, 0xAB, 0xCD]) = none := by decide

/-- Two states that differ in a byte above `occ`. -/
theorem witness_SearchIgnoresUnoccupiedBytes :
    let s := active [0xAB]
    let t : State := { s with buf := [(0, 0xAB), (1, 0xCD)] }
    s.cfg = t.cfg ∧ s.occ = t.occ ∧ ∀ a, a < s.occ → Memory.read s.buf a = Memory.read t.buf a := by decide

/-- The three outcomes, the second with a prefix to evict and without one. -/
theorem witness_ComputeRangeOutcomes :
    findMarker 0 (active [0x11]) = none ∧
    (findMarker 0 (active [0x11, 0xAB, 0xCD]) = some 1 ∧ findMarker (1 + 2) (active [0x11, 0xAB, 0xCD]) = none) ∧
    (findMarker 0 (active [0xAB, 0xCD]) = some 0 ∧ findMarker (0 + 2) (active [0xAB, 0xCD]) = none) ∧
    (findMarker 0 (active [0xAB, 0xCD, 0xAB, 0xCD]) = some 0 ∧ findMarker (0 + 2) (active [0xAB, 0xCD, 0xAB, 0xCD]) = some 2) := by
  decide

theorem witness_ValidRangeExactlyWhenValidated :
    (configLegal (active []).cfg = true ∧ BufferExact (active [0xAB, 0xCD, 0xAB, 0xCD]) ∧
      (active [0xAB, 0xCD, 0xAB, 0xCD]).occ ≤ (active []).cfg.capacity) ∧
    (∃ t, computeRange (active [0xAB, 0xCD, 0xAB, 0xCD]) = .ok (⟨.valid, ⟨0, 2⟩, false⟩, t)) ∧
    (∃ t, computeRange (active [0xAB, 0xCD]) = .ok (⟨.incomplete, ⟨0, -1⟩, false⟩, t)) :=
  ⟨by decide, ⟨_, rfl⟩, ⟨_, rfl⟩⟩

/-- A request of everything occupied, and one that is outstanding with its answer next. -/
theorem witness_DispatchPresentsFrameAndReturnsAnswer :
    (BufferExact (active [1, 2, 3]) ∧ 3 ≤ (active [1, 2, 3]).occ) ∧
    (let s := dispatchedState [.decoderResponse 0];
      configLegal s.cfg = true ∧ nextCommand s = none ∧ s.decReq = some 3 ∧ s.push = none ∧
        s.inputs = .decoderResponse 0 :: []) := ⟨by decide, rfl, rfl, rfl, rfl, rfl⟩

theorem witness_DispatchBeyondOccupiedFaults : (active [1, 2, 3]).occ < 4 := by decide

/-- Codes 2 and 3. -/
theorem witness_FatalAnswerStops (code : BitVec 2) (h : code = 2 ∨ code = 3) :
    let s := waitingState [.decoderResponse code]
    configLegal s.cfg = true ∧ s.seq = .busy ∧ s.decReq = some 3 ∧ s.push = some ⟨6, 0, true⟩ ∧
      s.inputs = .decoderResponse code :: [] ∧ 2 ≤ code.toNat := by
  refine ⟨rfl, rfl, rfl, rfl, rfl, ?_⟩
  rcases h with rfl | rfl <;> decide

/-- Codes 0 and 1. -/
theorem witness_FrameAnswerEvictsAndCounts (code : BitVec 2) (h : code = 0 ∨ code = 1) :
    let s := waitingState [.decoderResponse code]
    Inv s ∧ s.seq = .busy ∧ s.decReq = some 3 ∧ s.push = some ⟨6, 0, true⟩ ∧
      s.inputs = .decoderResponse code :: [] ∧ code.toNat < 2 := by
  refine ⟨witness_inv_waiting _, rfl, rfl, rfl, rfl, ?_⟩
  rcases h with rfl | rfl <;> decide

theorem witness_NoStaleMarkerAfterFrame :
    let s := waitingState [.decoderResponse 0]
    Inv s ∧ s.seq = .busy ∧ s.inputs = .decoderResponse 0 :: [] ∧ (0 : BitVec 2).toNat < 2 ∧ ∃ t, step s = .next t :=
  ⟨witness_inv_waiting _, rfl, rfl, by decide, _, rfl⟩

theorem witness_PendingFrameIsFrozen :
    let s := waitingState [.allocOk false]
    s.seq = .busy ∧ (∃ t, step s = .next t) ∧ (∀ code rest, s.inputs ≠ .decoderResponse code :: rest) ∧
      (∀ rest, s.inputs ≠ .hardwareReset :: rest) :=
  ⟨rfl, ⟨_, rfl⟩, fun _ _ => nofun, fun _ => nofun⟩

/-- The last byte of the frame, and the first byte behind it. -/
theorem witness_DecoderReadReturnsFrameByte (a : Word) (_ : a = 2 ∨ a = 3) :
    let s := waitingState [.decoderRead a]
    Inv s ∧ nextCommand s = none ∧ s.inputs = .decoderRead a :: [] ∧ s.decReq = some 3 :=
  ⟨witness_inv_waiting _, rfl, rfl, rfl⟩

/-- Room for all of the payload: no marker, and a marker behind a prefix, the buffer one byte short of full. -/
theorem witness_PushRespondsWhileIncomplete :
    (configLegal (active []).cfg = true ∧ BufferExact (active [1, 2, 3, 4, 5, 6]) ∧
      (active [1, 2, 3, 4, 5, 6]).occ ≤ (active []).cfg.capacity ∧ (active [1, 2, 3, 4, 5, 6]).life = .active) ∧
    (findMarker 0 (active [1, 2, 3, 4, 5, 6, 7]) = none ∧ (active [1, 2, 3, 4, 5, 6, 7]).occ < (active []).cfg.capacity) ∧
    (findMarker 0 (active [1, 0xAB, 0xCD, 4, 5, 6, 7, 8]) = some 1 ∧
      findMarker (1 + 2) (active [1, 0xAB, 0xCD, 4, 5, 6, 7, 8]) = none ∧
      (active [1, 0xAB, 0xCD, 4, 5, 6, 7, 8]).occ - 1 < (active []).cfg.capacity) := by decide

theorem witness_PushDispatchesWholeFrame :
    (configLegal (active []).cfg = true ∧ BufferExact (active [1, 0xAB, 0xCD]) ∧
      (active [1, 0xAB, 0xCD]).occ ≤ (active []).cfg.capacity ∧ (active [1, 0xAB, 0xCD]).life = .active) ∧
    findMarker 0 (active [1, 0xAB, 0xCD, 0xAB, 0xCD]) = some 1 ∧
    findMarker (1 + 2) (active [1, 0xAB, 0xCD, 0xAB, 0xCD]) = some 3 := by decide

/-- A payload that exactly fills the buffer, with no marker, and with one at offset 0. -/
theorem witness_FullBufferIsResetOnce :
    (configLegal (active []).cfg = true ∧ BufferExact (active []) ∧ (active []).occ ≤ (active []).cfg.capacity ∧
      (active []).life = .active ∧ (active []).cfg.capacity ≤ (active []).occ + (8 : BitVec 16).toNat) ∧
    findMarker 0 (active [1, 2, 3, 4, 5, 6, 7, 8]) = none ∧
    (findMarker 0 (active [0xAB, 0xCD, 3, 4, 5, 6, 7, 8]) = some 0 ∧
      findMarker 2 (active [0xAB, 0xCD, 3, 4, 5, 6, 7, 8]) = none) := by decide

/-- A presented PUSH, for the statements about an accepted one. -/
theorem witness_accepted_push :
    let s : State := { active [0xAB, 0xCD, 1, 2, 3, 4, 5] with cmdPort := [⟨0x30000001, [6]⟩] }
    Inv s ∧ s.seq = .ready ∧ s.life = .active ∧ s.cmdPort = ⟨0x30000001, [6]⟩ :: [] ∧ decode 0x30000001 = .push 1 ∧
      1 ≤ (1 : BitVec 16).toNat := by
  have h := witness_inv_active
  exact ⟨⟨h.legal, h.exact, h.bound, h.inactive, h.reserved, h.ready, h.rest, h.busy⟩, rfl, rfl, rfl, by decide, by decide⟩

theorem witness_EmptyPushChangesNothing :
    let s : State := { active [0xAB, 0xCD, 1, 2, 3, 4, 5] with cmdPort := [⟨0x30000000, []⟩] }
    Inv s ∧ s.seq = .ready ∧ s.life = .active ∧ s.cmdPort = ⟨0x30000000, []⟩ :: [] ∧ decode 0x30000000 = .push 0 := by
  have h := witness_inv_active
  exact ⟨⟨h.legal, h.exact, h.bound, h.inactive, h.reserved, h.ready, h.rest, h.busy⟩, rfl, rfl, rfl, by decide⟩

theorem witness_NoProgressGuard : 1 + 1 = 2 ∧ 0 + 1 ≠ 2 := by decide

/-- One command run to its end: an OK, a FATAL and a CMD_ERR response. -/
theorem witness_OneResponseWithItsStatus :
    (active []).seq = .ready ∧ (active []).cmdPort = [] ∧
    (transact ⟨0x30000001, [6]⟩ [] (active [])).isSome = true ∧
    (transact (pushCommand [0xAB, 0xCD, 1, 0xAB, 0xCD]) [2] (active [])).isSome = true ∧
    (transact ⟨0x60000000, []⟩ [] (active [])).isSome = true := by decide

/-- The three ways: OK, FATAL, and CMD_ERR outside `Active`. -/
theorem witness_PushEndsInOneOfThreeWays :
    decode (pushCommand [0xAB, 0xCD, 1, 0xAB, 0xCD]).word = .push 5 ∧
    (transact (pushCommand [0xAB, 0xCD, 1, 0xAB, 0xCD]) [0] (active [])).isSome = true ∧
    (transact (pushCommand [0xAB, 0xCD, 1, 0xAB, 0xCD]) [2] (active [])).isSome = true ∧
    (transact (pushCommand [0xAB, 0xCD, 1, 0xAB, 0xCD]) [] State.reset).isSome = true := by decide

/-- Exactly `(occ + N) / L` answers. -/
theorem witness_PushDoesBoundedWork :
    (active []).seq = .ready ∧ (active []).life = .active ∧ (active []).cmdPort = [] ∧
    decode (pushCommand [0xAB, 0xCD, 1, 0xAB, 0xCD]).word = .push 5 ∧
    ((active []).occ + (5 : BitVec 16).toNat) / (active []).cfg.markerLength ≤ [(0 : BitVec 2), 1].length := by decide

/-- One stream in one chunk and byte by byte, an empty chunk among them. -/
theorem witness_ChunkSizeIndependence :
    let cs : List (List Byte) := [[0xAB, 0xCD, 0xAB, 0xCD]]
    let ds : List (List Byte) := [[0xAB], [0xCD], [], [0xAB], [0xCD]]
    (active []).seq = .ready ∧ (active []).life = .active ∧ (active []).cmdPort = [] ∧ cs.flatten = ds.flatten ∧
      (active []).occ + cs.flatten.length ≤ [(0 : BitVec 2), 0, 0, 0].length := by decide

theorem witness_HardwareResetResult :
    (let s := waitingState [.hardwareReset];
      configLegal s.cfg = true ∧ nextCommand s = none ∧ s.inputs = .hardwareReset :: []) ∧
    (let s : State := { State.reset with inputs := [.lateDecoderResponse 1] };
      configLegal s.cfg = true ∧ nextCommand s = none ∧ s.inputs = .lateDecoderResponse 1 :: []) :=
  ⟨⟨rfl, rfl, rfl⟩, rfl, rfl, rfl⟩

theorem witness_ResetMeetsInvariant : configLegal Config.cfgB = true := by decide

/-- The invariants and the whole-machine rules: a state that meets `Inv` and `Framed`, and its step. -/
theorem witness_step_keeps :
    let s := waitingState [.decoderResponse 1]
    Inv s ∧ Framed s ∧ Memory.wf s.buf = true ∧ ∃ t, step s = .next t :=
  ⟨witness_inv_waiting _, witness_framed_waiting _, rfl, _, rfl⟩

/-- EVENTS bits that stay, are acknowledged, and are reset. -/
theorem witness_EventBitsAreSticky :
    (let s : State := { State.reset with events := 0x60, cmdPort := [⟨0x40000020, []⟩] };
      s.events.getLsbD 5 = true ∧ s.events.getLsbD 6 = true ∧ decode 0x40000020 = .ack 0x20 ∧
        see State.events (step s) = some 0x40) ∧
    see State.events (step { State.reset with events := 0x60, inputs := [.hardwareReset] }) = some 0 := by decide

/-- `frames` counted, and reset. -/
theorem witness_FramesCountsAnsweredDispatches :
    see State.frames (step (waitingState [.decoderResponse 1])) = some 1 ∧
    see State.frames (step { State.reset with frames := 7, inputs := [.hardwareReset] }) = some 0 := by decide

/-- Each writer of `life`. -/
theorem witness_LifeHasFourWriters :
    see State.life (step { State.reset with cmdPort := [⟨0x10000000, []⟩] }) = some .active ∧
    see State.life (step { active [] with cmdPort := [⟨0x20000000, []⟩] }) = some .stopped ∧
    see State.life (step (waitingState [.decoderResponse 2])) = some .stopped ∧
    see State.life (step (waitingState [.hardwareReset])) = some .idle := by decide

theorem witness_OccReadsAtMostCap : Inv (active [0xAB, 0xCD, 1, 2, 3, 4, 5]) ∧ State.reset.life ≠ .active :=
  ⟨witness_inv_active, by decide⟩

end Sys2Proof.Tests
end

section
/-! PROOFS. The scope of the block: its configuration is checked at construction and constant from then on (00_scope.md R6, R7). -/

namespace Sys2Proof.Machine

/-- A configuration that is not legal is refused at construction (00_scope.md R7). -/
theorem construct_illegal {c : Config} (h : configLegal c ≠ true) : construct c = .error .illegalConfiguration :=
  if_neg h

/-- A legal configuration is built into its reset state (00_scope.md R7). -/
theorem construct_legal {c : Config} (h : configLegal c = true) : construct c = .ok (State.resetWith c) :=
  if_pos h

/-- No step of a state with an illegal configuration has a meaning. -/
theorem step_illegal {s : State} (h : configLegal s.cfg ≠ true) : step s = .refused .illegalConfiguration :=
  if_neg h

/-- Settles O8: `configLegal` decides the four inequalities of R7, and both `construct` and `step` branch on it. -/
theorem illegalConfigurationRefused : Obligations.IllegalConfigurationRefused := by
  unfold Obligations.IllegalConfigurationRefused
  intro c
  rw [← configLegal_iff]
  refine ⟨construct_legal, fun hc => ⟨construct_illegal hc, ?_⟩⟩
  rintro s rfl
  exact step_illegal hc

/-- The decoder's answer to a PUSH, fatal or not, leaves the configuration alone (42_driver_commands.md R149 to R151). -/
theorem frameDecoded_cfg {c : PushLoop} {e : Nat} {r : DecoderResult} {s t : State} (h : frameDecoded c e r s = .next t) :
    t.cfg = s.cfg := by
  rcases frameDecoded_next h with ⟨-, rfl⟩ | ⟨-, s', hevict, hcycle⟩
  · exact fatalStop_cfg ..
  · calc t.cfg = (countFrame s').cfg := hcycle.cfg
      _ = (if r = .recoverable then raiseEvent .derr (BitVec.ofNat 32 e) s else s).cfg := (evict_keeps hevict).cfg
      _ = s.cfg := by split <;> rfl

/-- Settles O48, by what the step ran: a command, a hardware reset, the answer to a PUSH's dispatch, or another act of the
environment. -/
theorem configurationIsConstant : Obligations.ConfigurationIsConstant := by
  unfold Obligations.ConfigurationIsConstant
  intro s t h
  rcases step_effect_cases h with ⟨c, rest, -, -, hcommand⟩ | ⟨_, rest, -, -, -, rfl⟩ |
    ⟨_, rest, _, _, -, -, -, -, hanswer⟩ | hact
  · rcases hcommand with ⟨-, rfl | rfl⟩ | ⟨-, rfl | rfl⟩ | ⟨n, -, hcycle⟩ | ⟨_, -, rfl⟩ | ⟨_, rfl⟩ | ⟨_, rfl⟩
    case inr.inr.inl => exact hcycle.cfg
    -- Every command but an accepted PUSH ends in a record update that does not name `cfg`.
    all_goals rfl
  · rfl
  · exact (frameDecoded_cfg hanswer).trans (requestAnswered_cfg _)
  · rw [hact]

end Sys2Proof.Machine
end

section
/-! PROOFS. The invariant of every reachable state: the reset state meets it and every step keeps it (10_state.md R25, R26, R30,
R40 to R42). -/

namespace Sys2Proof.Machine

/-! ### The reset state, and acts that write only ports -/

/-- The reset state meets the invariant: it is Idle and READY over an empty buffer (10_state.md R41). -/
theorem inv_resetWith {c : Config} (h : configLegal c = true) : Inv (State.resetWith c) where
  legal := h
  exact := ⟨rfl, rfl⟩
  bound := Nat.zero_le _
  inactive _ := rfl
  reserved := BitVec.getLsbD_zero
  ready _ := ⟨rfl, rfl⟩
  rest _ hactive := nomatch hactive
  busy hbusy := nomatch hbusy

/-- Nothing was handed to the decoder and nothing is outstanding after reset. -/
theorem framed_resetWith (c : Config) : Framed (State.resetWith c) where
  shape _ hr := nomatch hr
  outstanding _ he := nomatch he

/-- Settles O43: the reset state under any legal configuration, of which CFG-B is one. -/
theorem resetMeetsInvariant : Obligations.ResetMeetsInvariant := by
  unfold Obligations.ResetMeetsInvariant
  exact ⟨fun c hc => ⟨inv_resetWith hc, framed_resetWith c⟩, inv_resetWith (by decide)⟩

/-- The invariant says nothing of the command port, the decoder read port, `alloc_ok` and the model's own fields. -/
theorem Inv.of_ports {s t : State} (h : Inv s) (ht : t = { s with
    inputs := t.inputs, cmdPort := t.cmdPort, decReads := t.decReads, allocOk := t.allocOk, micro := t.micro, draws := t.draws }) :
    Inv t := by
  rw [ht]
  exact ⟨h.legal, h.exact, h.bound, h.inactive, h.reserved, h.ready, h.rest, h.busy⟩

theorem Inv.hardReset {s : State} (h : Inv s) : Inv (hardReset s) :=
  (inv_resetWith h.legal).of_ports rfl

/-! ### States from which the block may respond -/

/-- A command may end here: `respond` leads to a state of the invariant, whatever `seq`, the loop variables and the payload are. -/
structure Settled (s : State) : Prop where
  legal : configLegal s.cfg = true
  exact : BufferExact s
  bound : s.occ ≤ s.cfg.capacity
  inactive : s.life ≠ .active → s.occ = 0
  reserved : s.events.getLsbD 7 = false
  noRequest : s.decReq = none
  rest : s.life = .active → s.occ < s.cfg.capacity ∧ Quiescent s

/-- A response ends the command between commands: READY, without transients (10_state.md R29, 42_driver_commands.md R140). -/
theorem Settled.respond {s : State} (h : Settled s) (r : Status) (x : Word) : Inv (respond r x s) where
  legal := h.legal
  exact := h.exact
  bound := h.bound
  inactive := h.inactive
  reserved := h.reserved
  ready _ := ⟨rfl, h.noRequest⟩
  rest _ := h.rest
  busy hbusy := nomatch hbusy

/-- A READY block that accepts a command is settled until the command changes something. -/
theorem Settled.of_accept {s : State} (h : Inv s) (hs : s.seq = .ready) (c : HostCommand) (rest : List HostCommand) :
    Settled (accept c rest s) where
  legal := h.legal
  exact := h.exact
  bound := h.bound
  inactive := h.inactive
  reserved := h.reserved
  noRequest := (h.ready hs).2
  rest := h.rest hs

/-- EVENTS may be written, with its bit 7 at 0, and records emitted. -/
theorem Settled.withEvents {s : State} (h : Settled s) {v : BitVec 8} (hv : v.getLsbD 7 = false) (p : List EventRecord) :
    Settled { s with events := v, eventPort := p } :=
  ⟨h.legal, h.exact, h.bound, h.inactive, hv, h.noRequest, h.rest⟩

/-- Bit 7 is no event's bit, so a raised event leaves it 0 (10_state.md R40). -/
theorem Settled.raiseEvent {s : State} (h : Settled s) (e : Event) (x : Word) : Settled (raiseEvent e x s) := by
  refine h.withEvents ?_ _
  rw [BitVec.getLsbD_or, h.reserved, eventBit_reserved, Bool.or_false]

/-- An emptied buffer holds no marker and has room, so `life` may take any value over it. -/
theorem Settled.withLife_emptyBuffer {s : State} (h : Settled s) (l : Life) : Settled { emptyBuffer s with life := l } where
  legal := h.legal
  exact := ⟨rfl, rfl⟩
  bound := Nat.zero_le _
  inactive _ := rfl
  reserved := h.reserved
  noRequest := h.noRequest
  rest _ := by
    obtain ⟨hL, -, hCL, -⟩ := (configLegal_iff _).mp h.legal
    have hroom : 0 < s.cfg.capacity := by omega
    refine ⟨hroom, .inl ((findMarker_eq_none_iff _ _).mpr fun o _ ho => ?_)⟩
    -- No whole marker fits in an empty buffer.
    have : o + s.cfg.markerLength ≤ 0 := ho
    omega

/-- What an ACK leaves of each EVENTS bit (42_driver_commands.md R158). -/
theorem getLsbD_clearEvents (events mask : BitVec 8) (i : Nat) :
    (clearEvents events mask).getLsbD i = (events.getLsbD i && !(mask.getLsbD i && decide (i < 7))) := by
  have hseven : ∀ j : Fin 8, (0x7F : BitVec 8).getLsbD j = decide (j.val < 7) := by decide
  by_cases hi : i < 8
  · simp only [clearEvents, BitVec.getLsbD_and, BitVec.getLsbD_not, hi, decide_true, Bool.true_and, hseven ⟨i, hi⟩]
  · simp [BitVec.getLsbD_of_ge _ _ (Nat.le_of_not_lt hi)]

/-! ### Each command keeps the invariant -/

theorem Settled.commandError {s : State} (h : Settled s) (w : Word) : Inv (commandError w s) :=
  (h.raiseEvent .cmderr w).respond .cmdErr 0

theorem Settled.startActive {s : State} (h : Settled s) : Inv (startActive s) :=
  (h.withLife_emptyBuffer .active).respond .ok 0

theorem Settled.fatalStop {s : State} (h : Settled s) (e : Event) (x : Word) (r : Status) (y : Word) :
    Inv (fatalStop e x r y s) :=
  ((h.raiseEvent e x).withLife_emptyBuffer .stopped).respond r y

theorem execStart_keeps_inv {s t : State} (h : Settled s) (ht : execStart s = .next t) : Inv t := by
  obtain rfl := Host.Outcome.next.inj ht
  split
  · exact h.commandError _
  · split
    · exact h.startActive
    · exact h.fatalStop _ _ _ _

theorem execStop_keeps_inv {s t : State} (h : Settled s) (ht : execStop s = .next t) : Inv t := by
  obtain rfl := Host.Outcome.next.inj ht
  split
  · exact (h.withLife_emptyBuffer .stopped).respond .ok 0
  · exact h.respond .ok 0

/-- An accepted PUSH is one stretch of the cycle, or a CMD_ERR outside Active (42_driver_commands.md R144, R145). -/
theorem execPush_keeps_inv {s t : State} (h : Inv s) (hs : s.seq = .ready) {c : HostCommand} {rest : List HostCommand}
    {n : BitVec 16} (ht : execPush n (accept c rest s) = .next t) : Inv t := by
  by_cases hactive : s.life = .active
  · obtain ⟨_, _, t', ht', hstretch, -, -⟩ := execPush_stretch h hs hactive c rest n
    obtain rfl := Host.Outcome.next.inj (ht'.symm.trans ht)
    exact hstretch.inv
  · rcases execPush_next ht with ⟨ha, -⟩ | ⟨-, rfl⟩
    · exact absurd ha hactive
    · exact (Settled.of_accept h hs c rest).commandError _

theorem execAck_keeps_inv {s t : State} {mask : BitVec 8} (h : Settled s) (ht : execAck mask s = .next t) : Inv t := by
  obtain rfl := Host.Outcome.next.inj ht
  refine (h.withEvents ?_ _).respond .ok 0
  rw [getLsbD_clearEvents, h.reserved, Bool.false_and]

theorem execRdreg_keeps_inv {s t : State} {idx : BitVec 4} (h : Settled s) (ht : execRdreg idx s = .next t) : Inv t := by
  unfold execRdreg at ht
  split at ht
  · obtain rfl := Host.Outcome.next.inj ht
    exact h.respond .ok _
  · obtain rfl := Host.Outcome.next.inj ht
    exact h.commandError _

/-- A command a READY block accepts keeps the invariant: a decoded word is one of the six host commands (30_encoding.md R85). -/
theorem exec_accepted_keeps_inv {s t : State} (h : Inv s) (hs : s.seq = .ready) {c : HostCommand} {rest : List HostCommand}
    (ht : exec (decode c.word) (accept c rest s) = .next t) : Inv t := by
  have hset := Settled.of_accept h hs c rest
  rcases decode_cases c.word with hw | hw | ⟨n, hw⟩ | ⟨mask, hw⟩ | ⟨idx, hw⟩ | hw <;> rw [hw] at ht
  · exact execStart_keeps_inv hset ht
  · exact execStop_keeps_inv hset ht
  · exact execPush_keeps_inv h hs ht
  · exact execAck_keeps_inv hset ht
  · exact execRdreg_keeps_inv hset ht
  · obtain rfl := Host.Outcome.next.inj ht
    exact hset.commandError _

/-! ### Each act of the environment keeps the invariant -/

/-- With no request outstanding an answer is no transfer. -/
theorem decoderResponds_none {s : State} (h : s.decReq = none) (code : BitVec 2) : decoderResponds code s = .next s := by
  simp only [decoderResponds, h]

/-- The decoder's answer: none is outstanding in a READY block, and a BUSY one is a PUSH whose frame stands whole in the buffer
(10_state.md R30, 42_driver_commands.md R149 to R151). -/
theorem step_decoderResponse_keeps_inv {s t : State} (h : Inv s) {code : BitVec 2} {rest : List Input}
    (hn : nextCommand s = none) (hi : s.inputs = .decoderResponse code :: rest) (ht : step s = .next t) : Inv t := by
  cases hseq : s.seq with
  | ready =>
    have hnone : { s with inputs := rest }.decReq = none := (h.ready hseq).2
    have hstep := (step_receives h.legal hn hi).trans (decoderResponds_none hnone code)
    obtain rfl := Host.Outcome.next.inj (hstep.symm.trans ht)
    exact h.withInputs rest
  | busy =>
    obtain ⟨-, hpush, e, hreq, -⟩ := h.busy hseq
    obtain ⟨loop, hloop⟩ := Option.isSome_iff_exists.mp hpush
    have hstate : { s with inputs := .decoderResponse code :: rest } = s := by rw [← hi]
    rcases answer_cases code (h.withInputs rest) hseq hreq hloop with
      ⟨t', _, _, ht', -, hanswered⟩ | ⟨t', _, _, _, _, ht', hinv, -⟩
    · obtain rfl := Host.Outcome.next.inj ((hstate ▸ ht').symm.trans ht)
      exact hanswered.inv
    · obtain rfl := Host.Outcome.next.inj ((hstate ▸ ht').symm.trans ht)
      exact hinv

/-- An act other than a decoder response and a hardware reset writes ports, `alloc_ok` and the count of draws only. -/
theorem receive_writes_ports {i : Input} {s t : State} (hdec : ∀ code, i ≠ .decoderResponse code) (hrst : i ≠ .hardwareReset)
    (ht : receive i s = .next t) :
    t = { s with cmdPort := t.cmdPort, decReads := t.decReads, allocOk := t.allocOk, draws := t.draws } := by
  cases i with
  | decoderResponse code => exact absurd rfl (hdec code)
  | hardwareReset => exact absurd rfl hrst
  | command c => obtain rfl := Host.Outcome.next.inj ht; rfl
  | lateDecoderResponse code => obtain rfl := Host.Outcome.next.inj ht; rfl
  | decoderRead addr => obtain rfl := Host.Outcome.next.inj ht; rfl
  | allocOk level => obtain rfl := Host.Outcome.next.inj ht; rfl

/-- Settles O44: an accepted command, no act, or one act of the environment. -/
theorem stepKeepsInvariant : Obligations.StepKeepsInvariant := by
  unfold Obligations.StepKeepsInvariant
  intro s t h ht
  obtain ⟨-, ⟨c, rest, hs, -, hexec⟩ | ⟨-, -, rfl⟩ | ⟨hn, i, rest, hi, hreceive⟩⟩ := step_next_cases ht
  · exact exec_accepted_keeps_inv h hs hexec
  · exact h
  · by_cases hdec : ∃ code, i = .decoderResponse code
    · obtain ⟨code, rfl⟩ := hdec
      exact step_decoderResponse_keeps_inv h hn hi ht
    · by_cases hrst : i = .hardwareReset
      · subst hrst
        obtain rfl := Host.Outcome.next.inj hreceive
        exact (h.withInputs rest).hardReset
      · have hports := receive_writes_ports (not_exists.mp hdec) hrst hreceive
        exact (h.withInputs rest).of_ports (by rw [hports])

end Sys2Proof.Machine
end

section
/-! PROOFS. What a step leaves of each state element, from states that no run reaches too, and the registers as the host reads
them (10_state.md R22, R23, R24, R27, R30, R40). -/

namespace Sys2Proof.Machine

/-- Settles O29: a BUSY block accepts nothing, and every act but the two excluded ones writes ports only. -/
theorem pendingFrameIsFrozen : Obligations.PendingFrameIsFrozen := by
  unfold Obligations.PendingFrameIsFrozen
  intro s t hbusy ht hdec hrst
  obtain ⟨-, ⟨_, _, hready, -⟩ | ⟨-, -, rfl⟩ | ⟨-, i, rest, hi, hreceive⟩⟩ := step_next_cases ht
  · exact absurd (hready.symm.trans hbusy) (by decide)
  · exact ⟨rfl, rfl, rfl, rfl, hbusy, rfl, rfl, rfl, rfl, rfl, rfl, rfl⟩
  · have hports := receive_writes_ports (fun code hc => hdec code rest (hc ▸ hi)) (fun hc => hrst rest (hc ▸ hi)) hreceive
    rw [hports]
    exact ⟨rfl, rfl, rfl, rfl, hbusy, rfl, rfl, rfl, rfl, rfl, rfl, rfl⟩

/-! ### The decoder's answer from any state -/

/-- What the cycle keeps, it keeps of a state with one more frame counted. -/
theorem CycleKeeps.countFrame {s t : State} (h : CycleKeeps s t) : CycleKeeps (countFrame s) (countFrame t) :=
  ⟨h.cfg, h.life, congrArg satInc32 h.frames, h.cmdPort, h.decReads, h.allocOk, h.inputs, h.micro, h.draws, h.records, h.sticky,
    h.canonical⟩

/-- An answer that is not fatal counts the frame, raises DERR where it is recoverable, and goes on with the cycle
(42_driver_commands.md R149, R150). -/
theorem frameDecoded_keeps {c : PushLoop} {e : Nat} {r : DecoderResult} {s t : State} (hr : r ≠ .fatal)
    (h : frameDecoded c e r s = .next t) :
    CycleKeeps (countFrame (if r = .recoverable then raiseEvent .derr (BitVec.ofNat 32 e) s else s)) t := by
  rcases frameDecoded_next h with ⟨hfatal, -⟩ | ⟨-, s', hevict, hcycle⟩
  · exact absurd hfatal hr
  · exact (evict_keeps hevict).countFrame.trans hcycle

/-- A raised event clears no EVENTS bit (60_exceptions.md R182). -/
theorem raiseEvent_sticky {s : State} {i : Nat} (h : s.events.getLsbD i = true) (e : Event) (x : Word) :
    (raiseEvent e x s).events.getLsbD i = true := by
  rw [raiseEvent_events, BitVec.getLsbD_or, h, Bool.true_or]

/-- The decoder's answer leaves the buffer canonical, fatal or not. -/
theorem frameDecoded_canonical {c : PushLoop} {e : Nat} {r : DecoderResult} {s t : State} (hw : Memory.wf s.buf = true)
    (h : frameDecoded c e r s = .next t) : Memory.wf t.buf = true := by
  by_cases hr : r = .fatal
  · subst hr
    obtain rfl := Host.Outcome.next.inj h
    rfl
  · refine (frameDecoded_keeps hr h).canonical ?_
    split <;> exact hw

/-- The decoder's answer clears no EVENTS bit, fatal or not. -/
theorem frameDecoded_sticky {c : PushLoop} {e : Nat} {r : DecoderResult} {s t : State} {i : Nat}
    (hb : s.events.getLsbD i = true) (h : frameDecoded c e r s = .next t) : t.events.getLsbD i = true := by
  by_cases hr : r = .fatal
  · subst hr
    obtain rfl := Host.Outcome.next.inj h
    exact raiseEvent_sticky hb .dfatal (BitVec.ofNat 32 e)
  · refine (frameDecoded_keeps hr h).sticky i ?_
    split
    · exact raiseEvent_sticky hb .derr (BitVec.ofNat 32 e)
    · exact hb

/-- A fatal answer counts no frame; any other counts one (42_driver_commands.md R149 to R151). -/
theorem frameDecoded_frames {c : PushLoop} {e : Nat} {r : DecoderResult} {s t : State} (h : frameDecoded c e r s = .next t) :
    t.frames = if r = .fatal then s.frames else satInc32 s.frames := by
  by_cases hr : r = .fatal
  · subst hr
    obtain rfl := Host.Outcome.next.inj h
    rfl
  · rw [if_neg hr, (frameDecoded_keeps hr h).frames]
    split <;> rfl

/-- A fatal answer stops the block; any other leaves `life` (42_driver_commands.md R149 to R151). -/
theorem frameDecoded_life {c : PushLoop} {e : Nat} {r : DecoderResult} {s t : State} (h : frameDecoded c e r s = .next t) :
    t.life = if r = .fatal then .stopped else s.life := by
  by_cases hr : r = .fatal
  · subst hr
    obtain rfl := Host.Outcome.next.inj h
    rfl
  · rw [if_neg hr, (frameDecoded_keeps hr h).life]
    split <;> rfl

/-- `sat_inc32` leaves the greatest value and adds one to any other (00_scope.md R13). -/
theorem satInc32_cases (x : BitVec 32) : satInc32 x = x ∨ (satInc32 x = x + 1 ∧ x ≠ 0xFFFFFFFF) := by
  by_cases h : x = BitVec.allOnes 32
  · exact .inl (if_pos h)
  · exact .inr ⟨if_neg h, h⟩

/-! ### What a step leaves, from any state -/

/-- Settles O47: every command and act leaves the buffer, empties it, or runs the cycle. -/
theorem stepKeepsCanonicalMemory : Obligations.StepKeepsCanonicalMemory := by
  unfold Obligations.StepKeepsCanonicalMemory
  intro s t hw ht
  rcases step_effect_cases ht with ⟨c, rest, -, -, hcommand⟩ | ⟨_, rest, -, -, -, rfl⟩ |
    ⟨_, rest, _, _, -, -, -, -, hanswer⟩ | hact
  · rcases hcommand with ⟨-, rfl | rfl⟩ | ⟨-, rfl | rfl⟩ | ⟨n, -, hcycle⟩ | ⟨_, -, rfl⟩ | ⟨_, rfl⟩ | ⟨_, rfl⟩
    · rfl
    · rfl
    · exact hw
    · rfl
    · exact hcycle.canonical hw
    · exact hw
    · exact hw
    · exact hw
  · rfl
  · exact frameDecoded_canonical (s := requestAnswered { s with inputs := rest }) hw hanswer
  · rw [hact]; exact hw

/-- Settles O49: only an ACK's `clearEvents` and the hardware reset take a bit away; raised events only add bits. -/
theorem eventBitsAreSticky : Obligations.EventBitsAreSticky := by
  unfold Obligations.EventBitsAreSticky
  intro s t i ht hb
  rcases step_effect_cases ht with ⟨c, rest, hs, hq, hcommand⟩ | ⟨_, rest, hn, hi, rfl, -⟩ |
    ⟨_, rest, _, _, -, -, -, -, hanswer⟩ | hact
  · rcases hcommand with ⟨-, rfl | rfl⟩ | ⟨-, rfl | rfl⟩ | ⟨n, -, hcycle⟩ | ⟨mask, hword, rfl⟩ | ⟨_, rfl⟩ | ⟨w, rfl⟩
    · exact .inl hb
    · exact .inl (raiseEvent_sticky (s := s) hb .initerr 0)
    · exact .inl hb
    · exact .inl hb
    · exact .inl (hcycle.sticky i hb)
    · by_cases hnamed : mask.getLsbD i = true ∧ i < 7
      · exact .inr (.inl ⟨c, rest, mask, hs, hq, hword, hnamed⟩)
      · refine .inl ?_
        have hkept : (mask.getLsbD i && decide (i < 7)) = false := by simpa using hnamed
        rw [respond_events, getLsbD_clearEvents, hb, hkept]
        rfl
    · exact .inl hb
    · exact .inl (raiseEvent_sticky (s := s) hb .cmderr w)
  · exact .inr (.inr ⟨rest, hn, hi⟩)
  · exact .inl (frameDecoded_sticky (s := requestAnswered { s with inputs := rest }) hb hanswer)
  · rw [hact]; exact .inl hb

/-- Settles O50: outside a hardware reset only `countFrame` writes `frames`, and only an answer that is not fatal runs it. -/
theorem framesCountsAnsweredDispatches : Obligations.FramesCountsAnsweredDispatches := by
  unfold Obligations.FramesCountsAnsweredDispatches
  intro s t ht
  rcases step_effect_cases ht with ⟨c, rest, -, -, hcommand⟩ | ⟨_, rest, -, hi, rfl, rfl⟩ |
    ⟨code, rest, _, _, -, hi, hreq, hpush, hanswer⟩ | hact
  · rcases hcommand with ⟨-, rfl | rfl⟩ | ⟨-, rfl | rfl⟩ | ⟨n, -, hcycle⟩ | ⟨_, -, rfl⟩ | ⟨_, rfl⟩ | ⟨_, rfl⟩
    case inr.inr.inl => exact .inl hcycle.frames
    -- Every command but an accepted PUSH ends in a record update that does not name `frames`.
    all_goals exact .inl rfl
  · exact .inr (.inr ⟨rfl, rest, hi⟩)
  · have hframes := frameDecoded_frames hanswer
    rw [requestAnswered_frames] at hframes
    by_cases hfatal : decoderResult code = .fatal
    · exact .inl (hframes.trans (if_pos hfatal))
    · rw [if_neg hfatal] at hframes
      rcases satInc32_cases s.frames with hsat | ⟨hinc, hmax⟩
      · exact .inl (hframes.trans hsat)
      · exact .inr (.inl ⟨hframes.trans hinc, hmax, by rw [hreq]; rfl, by rw [hpush]; rfl, code, rest, hi,
          (decoderResult_ne_fatal code).mp hfatal⟩)
  · rw [hact]; exact .inl rfl

/-- Settles O51: the codes by computation, the writers by what the step ran. -/
theorem lifeHasFourWriters : Obligations.LifeHasFourWriters := by
  unfold Obligations.LifeHasFourWriters
  refine ⟨⟨rfl, rfl, rfl, fun l => by cases l <;> decide⟩, fun s t ht => ?_⟩
  rcases step_effect_cases ht with ⟨c, rest, hs, hq, hcommand⟩ | ⟨_, rest, -, hi, rfl, rfl⟩ |
    ⟨code, rest, _, _, -, hi, hreq, hpush, hanswer⟩ | hact
  · rcases hcommand with ⟨⟨hword, -⟩, -⟩ | ⟨hword, -⟩ | ⟨n, -, hcycle⟩ | ⟨_, -, rfl⟩ | ⟨_, rfl⟩ | ⟨_, rfl⟩
    · exact .inr (.inl ⟨c, rest, hs, hq, .inl hword⟩)
    · exact .inr (.inl ⟨c, rest, hs, hq, .inr hword⟩)
    · exact .inl hcycle.life
    · exact .inl rfl
    · exact .inl rfl
    · exact .inl rfl
  · exact .inr (.inr (.inr ⟨rfl, rest, hi⟩))
  · have hlife := frameDecoded_life hanswer
    rw [requestAnswered_life] at hlife
    by_cases hfatal : decoderResult code = .fatal
    · have hcode : 2 ≤ code.toNat := Nat.le_of_not_lt fun hlt => (decoderResult_ne_fatal code).mpr hlt hfatal
      exact .inr (.inr (.inl ⟨hlife.trans (if_pos hfatal), by rw [hpush]; rfl, by rw [hreq]; rfl, code, rest, hi, hcode⟩))
    · exact .inl (hlife.trans (if_neg hfatal))
  · rw [hact]; exact .inl rfl

/-! ### The registers OCC and CAP -/

/-- Settles O52: a legal capacity is below `2^32`, so neither register is cut, and `occ <= C` is part of the invariant. -/
theorem occReadsAtMostCap : Obligations.OccReadsAtMostCap := by
  unfold Obligations.OccReadsAtMostCap
  intro s h
  obtain ⟨-, -, -, hcap⟩ := (configLegal_iff _).mp h.legal
  have hbound := h.bound
  have hoccRead : (regValue .occ s).toNat = s.occ := by
    rw [regValue, BitVec.toNat_ofNat]; exact Nat.mod_eq_of_lt (by omega)
  have hcapRead : (regValue .cap s).toNat = s.cfg.capacity := by
    rw [regValue, BitVec.toNat_ofNat]; exact Nat.mod_eq_of_lt (by omega)
  refine ⟨respond .ok (regValue .occ s) s, respond .ok (regValue .cap s) s, _, _, rfl, rfl, rfl, rfl, ?_, hcapRead, ?_⟩
  · rw [hoccRead, hcapRead]; exact hbound
  · intro hlife
    exact BitVec.eq_of_toNat_eq (hoccRead.trans (h.inactive hlife))

end Sys2Proof.Machine
end

section
/-! PROOFS. The working buffer as memory: what the search and the decoder read of it, what a MemRead beyond `occ` does, and that
no step from a state of the invariant stops (20_memory.md R51, R60, R61, R65). -/

namespace Sys2Proof.Machine

/-! ### Reads below and beyond `occ` -/

/-- A whole marker inside the occupied window is compared on occupied bytes only (20_memory.md R51). -/
theorem markerAt_congr_below {s t : State} (hc : s.cfg = t.cfg)
    (hread : ∀ a, a < s.occ → Memory.read s.buf a = Memory.read t.buf a) {o : Nat} (ho : o + s.cfg.markerLength ≤ s.occ) :
    markerAt o s = markerAt o t := by
  have hbyte : ∀ j ∈ List.range s.cfg.markerLength, markerByteAt o j s = markerByteAt o j t := by
    intro j hj
    have hoccupied : o + j < s.occ := by have := List.mem_range.mp hj; omega
    simp only [markerByteAt, hread _ hoccupied, hc]
  rw [markerAt, markerAt, ← hc, Bool.eq_iff_iff, List.all_eq_true, List.all_eq_true]
  exact forall₂_congr fun j hj => by rw [hbyte j hj]

/-- Settles O20: the search compares whole markers inside the window only, and those compare alike in both states. -/
theorem searchIgnoresUnoccupiedBytes : Obligations.SearchIgnoresUnoccupiedBytes := by
  unfold Obligations.SearchIgnoresUnoccupiedBytes
  intro s t origin hc hocc hread
  simp only [findMarker, ← hc, ← hocc]
  exact List.find?_congr fun o ho => markerAt_congr_below hc hread (by have := List.mem_range'_1.mp ho; omega)

/-- MemRead beyond `occ` faults (20_memory.md R65). -/
theorem memRead_beyond {s : State} {a n : Nat} (h : s.occ < a + n) : memRead a n s = .error (.readOutOfBounds a n) :=
  if_neg (Nat.not_le_of_lt h)

/-- Settles O25: the copy of the frame is the faulting MemRead. -/
theorem dispatchBeyondOccupiedFaults : Obligations.DispatchBeyondOccupiedFaults := by
  unfold Obligations.DispatchBeyondOccupiedFaults
  intro s e he
  have hread : memRead 0 e s = .error (.readOutOfBounds 0 e) := memRead_beyond (by omega)
  simp only [exec, execDispatch, dispatch, hread]

/-! ### Acts of the environment on a waiting block -/

/-- Settles O7: a BUSY block accepts nothing, so the act takes place. -/
theorem commandWaitsWhileBusy : Obligations.CommandWaitsWhileBusy := by
  unfold Obligations.CommandWaitsWhileBusy
  intro s c rest hlegal hbusy hi
  exact step_receives hlegal (nextCommand_busy hbusy) hi

/-- An outstanding request is the one of a BUSY PUSH, for the frame at the front of the buffer (10_state.md R30). -/
theorem Inv.pending_of_decReq {s : State} (h : Inv s) {e : Nat} (hreq : s.decReq = some e) :
    s.seq = .busy ∧ s.push.isSome = true ∧ FramePending e s := by
  cases hseq : s.seq with
  | ready => exact nomatch hreq.symm.trans (h.ready hseq).2
  | busy =>
    obtain ⟨-, hpush, e', hpending⟩ := h.busy hseq
    obtain rfl := Option.some.inj (hreq.symm.trans hpending.1)
    exact ⟨rfl, hpush, hpending⟩

/-- A decoder read of an occupied byte below `dec_end` answers that byte (20_memory.md R61). -/
theorem read_eq_decoderReadData {s : State} (h : BufferExact s) {e : Nat} (hreq : s.decReq = some e) (he : e ≤ s.occ)
    {addr : Word} (ha : addr.toNat < e) : Memory.read s.buf addr.toNat = some (decoderReadData addr s) := by
  have hlen : addr.toNat < (window s).length := by rw [← occ_eq_length h]; omega
  have hbyte : Memory.read s.buf addr.toNat = some (window s)[addr.toNat] :=
    (read_exact h _).trans (List.getElem?_eq_getElem hlen)
  simp only [decoderReadData, hreq, if_pos ha, hbyte, Option.getD_some]

/-- Settles O30: the byte is `decoderReadData`; a frame outstanding in a state of the invariant lies below `occ`. -/
theorem decoderReadReturnsFrameByte : Obligations.DecoderReadReturnsFrameByte := by
  unfold Obligations.DecoderReadReturnsFrameByte
  intro s addr rest h hn hi
  refine ⟨decoderReadData addr { s with inputs := rest }, step_receives h.legal hn hi, fun e hreq ha => ?_⟩
  obtain ⟨-, -, -, -, hfits, -⟩ := h.pending_of_decReq hreq
  exact read_eq_decoderReadData (s := { s with inputs := rest }) h.exact hreq (by show e ≤ s.occ; omega) ha

/-! ### No step from a state of the invariant stops -/

/-- An accepted PUSH answers a next state: in Active by the bound of 42_driver_commands.md R157, elsewhere by CMD_ERR. -/
theorem execPush_answers {s : State} (h : Inv s) (hs : s.seq = .ready) (c : HostCommand) (rest : List HostCommand)
    (n : BitVec 16) : ∃ t, execPush n (accept c rest s) = .next t := by
  by_cases hactive : s.life = .active
  · obtain ⟨_, _, t, ht, -⟩ := execPush_stretch h hs hactive c rest n
    exact ⟨t, ht⟩
  · exact ⟨_, if_neg hactive⟩

/-- RDREG answers a next state from any state: the register's value, or CMD_ERR (42_driver_commands.md R159, R160). -/
theorem execRdreg_answers (idx : BitVec 4) (s : State) : ∃ t, execRdreg idx s = .next t := by
  unfold execRdreg
  split
  · exact ⟨_, rfl⟩
  · exact ⟨_, rfl⟩

/-- Every command a READY block accepts answers a next state: none decodes to a micro-operation (30_encoding.md R85). -/
theorem exec_accepted_answers {s : State} (h : Inv s) (hs : s.seq = .ready) (c : HostCommand) (rest : List HostCommand) :
    ∃ t, exec (decode c.word) (accept c rest s) = .next t := by
  rcases decode_cases c.word with hw | hw | ⟨n, hw⟩ | ⟨mask, hw⟩ | ⟨idx, hw⟩ | hw <;> rw [hw]
  · exact ⟨_, rfl⟩
  · exact ⟨_, rfl⟩
  · exact execPush_answers h hs c rest n
  · exact ⟨_, rfl⟩
  · exact execRdreg_answers idx _
  · exact ⟨_, rfl⟩

/-- The decoder's answer leads to a next state: an outstanding frame is occupied, so its eviction does not fault
(40_buffer_manager.md R103, 42_driver_commands.md R149 to R151). -/
theorem decoderResponds_answers {s : State} (h : Inv s) (code : BitVec 2) : ∃ t, decoderResponds code s = .next t := by
  cases hreq : s.decReq with
  | none => exact ⟨s, decoderResponds_none hreq code⟩
  | some e =>
    obtain ⟨hbusy, hpush, hpending⟩ := h.pending_of_decReq hreq
    obtain ⟨c, hc⟩ := Option.isSome_iff_exists.mp hpush
    simp only [decoderResponds, hreq, hc]
    by_cases hfatal : decoderResult code = .fatal
    · rw [hfatal]
      exact ⟨_, rfl⟩
    · obtain ⟨t, ht, -⟩ := frameDecoded_continues h hpending hbusy c hfatal
      exact ⟨t, ht⟩

/-- Every act of the environment leads to a next state. -/
theorem receive_answers {s : State} (h : Inv s) (i : Input) : ∃ t, receive i s = .next t := by
  cases i with
  | decoderResponse code => exact decoderResponds_answers h code
  | command c => exact ⟨_, rfl⟩
  | lateDecoderResponse code => exact ⟨_, rfl⟩
  | decoderRead addr => exact ⟨_, rfl⟩
  | allocOk level => exact ⟨_, rfl⟩
  | hardwareReset => exact ⟨_, rfl⟩

/-- Settles O45: an accepted command, no act, or one act of the environment, under a legal configuration. -/
theorem stepNeverStops : Obligations.StepNeverStops := by
  unfold Obligations.StepNeverStops
  intro s h
  cases hn : nextCommand s with
  | some accepted =>
    obtain ⟨hs, c, rest, hq, -, -⟩ := (nextCommand_eq_some_iff s accepted.1 accepted.2).mp hn
    rw [step_accepts h.legal hs hq]
    exact exec_accepted_answers h hs c rest
  | none =>
    cases hi : s.inputs with
    | nil => exact ⟨s, by rw [step_waits h.legal hn, waitForEnvironment, hi]⟩
    | cons i rest =>
      rw [step_receives h.legal hn hi]
      exact receive_answers (h.withInputs rest) i

end Sys2Proof.Machine
end

section
/-! PROOFS. The command words (30_encoding.md R71 to R73, R84, R85).  A row of the opcode map is an opcode and the width of its
operand, the low bits of the word.  Decoding finds the row a word lies in, the mask tests for the same row, and encoding writes
the row's word, so decoding and encoding are inverse to each other. -/

namespace Sys2Proof

/-! ### The rows of the opcode map -/

/-- The word lies in the row of opcode `op` whose operand is the low `k` bits: the reserved bits between the two are 0 (R71). -/
def InRow (op : BitVec 4) (k : Nat) (w : Word) : Prop := opcodeField w = op ∧ w.extractLsb' k (28 - k) = 0

/-- The word lies in none of the five rows of R73. -/
def InNoRow (w : Word) : Prop :=
  ¬ InRow 1#4 0 w ∧ ¬ InRow 2#4 0 w ∧ ¬ InRow 3#4 16 w ∧ ¬ InRow 4#4 8 w ∧ ¬ InRow 5#4 4 w

/-- The word of the row of opcode `op` with operand `x` (R72, R73). -/
def rowWord {k : Nat} (op : BitVec 4) (x : BitVec k) : Word := op.setWidth 32 <<< 28 ||| x.setWidth 32

/-- A row, bit by bit: the opcode on top, and zeros down to the operand. -/
theorem inRow_iff_getLsbD {k : Nat} (hk : k ≤ 28) (op : BitVec 4) (w : Word) :
    InRow op k w ↔ ∀ i < 32, k ≤ i → w.getLsbD i = (decide (28 ≤ i) && op.getLsbD (i - 28)) := by
  constructor
  · rintro ⟨rfl, hz⟩ i hi hki
    by_cases h : 28 ≤ i
    · simp [opcodeField, h, show i - 28 < 4 by omega]
    · have := congrArg (·.getLsbD (i - k)) hz
      simpa [h, show i - k < 28 - k by omega, Nat.add_sub_cancel' hki] using this
  · intro h
    constructor
    · refine BitVec.eq_of_getLsbD_eq fun i hi => ?_
      simp [opcodeField, hi, h (28 + i) (by omega) (by omega)]
    · refine BitVec.eq_of_getLsbD_eq fun i hi => ?_
      simp [hi, h (k + i) (by omega) (by omega), show ¬ 28 ≤ k + i by omega]

theorem getLsbD_rowWord {k : Nat} (op : BitVec 4) (x : BitVec k) {i : Nat} (hi : i < 32) :
    (rowWord op x).getLsbD i = ((decide (28 ≤ i) && op.getLsbD (i - 28)) || x.getLsbD i) := by
  rw [rowWord, BitVec.getLsbD_or, BitVec.getLsbD_shiftLeft, BitVec.getLsbD_setWidth, BitVec.getLsbD_setWidth]
  simp [hi, show i - 28 < 32 by omega, -BitVec.getLsbD_eq_getElem, ← decide_not]

/-- The row's mask (R73) keeps the bits above the operand. -/
theorem getLsbD_mask (k : Nat) {i : Nat} (hi : i < 32) : (BitVec.allOnes 32 <<< k).getLsbD i = decide (k ≤ i) := by
  rw [BitVec.getLsbD_shiftLeft, BitVec.getLsbD_allOnes]
  simp [hi, show i - k < 32 by omega, ← decide_not]

/-- A word lies in a row exactly when it matches the row under its mask (R73). -/
theorem and_mask_eq_iff {k : Nat} (hk : k ≤ 28) (op : BitVec 4) (w : Word) :
    w &&& BitVec.allOnes 32 <<< k = rowWord op 0#0 ↔ InRow op k w := by
  rw [inRow_iff_getLsbD hk, BitVec.eq_of_getLsbD_eq_iff]
  refine forall₂_congr fun i hi => ?_
  rw [BitVec.getLsbD_and, getLsbD_mask k hi, getLsbD_rowWord op _ hi]
  by_cases h : k ≤ i
  · simp [h]
  · simp [h, show ¬ 28 ≤ i by omega]

/-- The row's words are the words that lie in it, the operand being the low bits. -/
theorem rowWord_eq_iff {k : Nat} (hk : k ≤ 28) (op : BitVec 4) (x : BitVec k) (w : Word) :
    rowWord op x = w ↔ InRow op k w ∧ x = w.extractLsb' 0 k := by
  rw [inRow_iff_getLsbD hk, BitVec.eq_of_getLsbD_eq_iff, BitVec.eq_of_getLsbD_eq_iff]
  constructor
  · intro h
    refine ⟨fun i hi hki => ?_, fun i hi => ?_⟩
    · rw [← h i hi, getLsbD_rowWord op x hi, BitVec.getLsbD_of_ge x i hki, Bool.or_false]
    · rw [BitVec.getLsbD_extractLsb', Nat.zero_add, ← h i (by omega), getLsbD_rowWord op x (by omega)]
      simp [hi, show ¬ 28 ≤ i by omega]
  · rintro ⟨hrow, hx⟩ i hi
    rw [getLsbD_rowWord op x hi]
    by_cases h : k ≤ i
    · rw [hrow i hi h, BitVec.getLsbD_of_ge x i h, Bool.or_false]
    · rw [hx i (by omega), BitVec.getLsbD_extractLsb']
      simp [show i < k by omega, show ¬ 28 ≤ i by omega]

theorem rowWord_noOperand_eq_iff (op : BitVec 4) (w : Word) : rowWord op 0#0 = w ↔ InRow op 0 w := by
  rw [rowWord_eq_iff (by decide), and_iff_left (Subsingleton.elim _ _)]

/-- The rows of R73 as they are written there. -/
theorem inRow_iff_match (w : Word) :
    (InRow 1#4 0 w ↔ w &&& 0xFFFFFFFF = 0x10000000) ∧ (InRow 2#4 0 w ↔ w &&& 0xFFFFFFFF = 0x20000000) ∧
    (InRow 3#4 16 w ↔ w &&& 0xFFFF0000 = 0x30000000) ∧ (InRow 4#4 8 w ↔ w &&& 0xFFFFFF00 = 0x40000000) ∧
    (InRow 5#4 4 w ↔ w &&& 0xFFFFFFF0 = 0x50000000) := by
  refine ⟨?_, ?_, ?_, ?_, ?_⟩ <;> exact (and_mask_eq_iff (by decide) _ w).symm

theorem inNoRow_iff_match (w : Word) : InNoRow w ↔
    w &&& 0xFFFFFFFF ≠ 0x10000000 ∧ w &&& 0xFFFFFFFF ≠ 0x20000000 ∧ w &&& 0xFFFF0000 ≠ 0x30000000 ∧
    w &&& 0xFFFFFF00 ≠ 0x40000000 ∧ w &&& 0xFFFFFFF0 ≠ 0x50000000 := by
  obtain ⟨hstart, hstop, hpush, hack, hrdreg⟩ := inRow_iff_match w
  rw [InNoRow, hstart, hstop, hpush, hack, hrdreg]

theorem wellFormed_illegal_iff (w : Word) : wellFormed (.illegal w) = true ↔ InNoRow w := by
  rw [inNoRow_iff_match]
  simp only [wellFormed, matchesLegalRow, legalRows, List.any_cons, List.any_nil, Bool.or_false, Bool.not_eq_true',
    Bool.or_eq_false_iff, beq_eq_false_iff_ne]

/-! ### Decoding -/

/-- The six ways `decode` ends (R84): a word whose opcode has a row, with all reserved bits 0, or ILLEGAL. -/
theorem decode_row_cases (w : Word) :
    (InRow 1#4 0 w ∧ decode w = .start) ∨ (InRow 2#4 0 w ∧ decode w = .stop) ∨
    (InRow 3#4 16 w ∧ decode w = .push (w.extractLsb' 0 16)) ∨ (InRow 4#4 8 w ∧ decode w = .ack (w.extractLsb' 0 8)) ∨
    (InRow 5#4 4 w ∧ decode w = .rdreg (w.extractLsb' 0 4)) ∨ (InNoRow w ∧ decode w = .illegal w) := by
  unfold decode
  split_ifs <;> simp_all [InRow, InNoRow]

/-- Each outcome of `decode` has its row, because a word lies in at most one (R84). -/
theorem decode_eq_iff_inRow (w : Word) :
    (decode w = .start ↔ InRow 1#4 0 w) ∧ (decode w = .stop ↔ InRow 2#4 0 w) ∧
    (∀ n, decode w = .push n ↔ InRow 3#4 16 w ∧ n = w.extractLsb' 0 16) ∧
    (∀ m, decode w = .ack m ↔ InRow 4#4 8 w ∧ m = w.extractLsb' 0 8) ∧
    (∀ i, decode w = .rdreg i ↔ InRow 5#4 4 w ∧ i = w.extractLsb' 0 4) ∧
    (∀ v, decode w = .illegal v ↔ v = w ∧ InNoRow w) := by
  rcases decode_row_cases w with ⟨⟨hop, hz⟩, hd⟩ | ⟨⟨hop, hz⟩, hd⟩ | ⟨⟨hop, hz⟩, hd⟩ | ⟨⟨hop, hz⟩, hd⟩ | ⟨⟨hop, hz⟩, hd⟩ |
    ⟨⟨h1, h2, h3, h4, h5⟩, hd⟩
  case inr.inr.inr.inr.inr => simp [hd, h1, h2, h3, h4, h5, InNoRow, eq_comm]
  -- In a row, the opcode shuts out the four others.
  all_goals simp [hd, hop, hz, InRow, InNoRow, eq_comm]

/-- Settles O3: each row's mask keeps what `decode` tests, the opcode and the reserved bits. -/
theorem decodeByMatchAndMask : Obligations.DecodeByMatchAndMask := by
  unfold Obligations.DecodeByMatchAndMask
  intro w
  obtain ⟨hstart, hstop, hpush, hack, hrdreg⟩ := inRow_iff_match w
  rw [← inNoRow_iff_match, ← hstart, ← hstop, ← hpush, ← hack, ← hrdreg]
  exact decode_eq_iff_inRow w

/-- Settles O4: the decode procedure computed on each word. -/
theorem specWordsDecode : Obligations.SpecWordsDecode := by
  unfold Obligations.SpecWordsDecode
  decide

/-! ### The micro-operations -/

theorem isHostCommand_decode (w : Word) : isHostCommand (decode w) = true := by
  rcases Machine.decode_cases w with h | h | ⟨n, h⟩ | ⟨m, h⟩ | ⟨i, h⟩ | h <;> rw [h] <;> rfl

/-- Exactly the host commands have a command word (R85). -/
theorem encode_isSome_eq_isHostCommand : ∀ i : Instr, (encode i).isSome = isHostCommand i
  | .start => Laws.HostIssuable.start
  | .stop => Laws.HostIssuable.stop
  | .push n => Laws.HostIssuable.push n
  | .ack mask => Laws.HostIssuable.ack mask
  | .rdreg idx => Laws.HostIssuable.rdreg idx
  | .illegal w => Laws.HostIssuable.illegal w
  | .append d => Laws.HostIssuable.append d
  | .evict off => Laws.HostIssuable.evict off
  | .reset => Laws.HostIssuable.reset
  | .findMarker origin => Laws.HostIssuable.findMarker origin
  | .computeRange => Laws.HostIssuable.computeRange
  | .validate first last => Laws.HostIssuable.validate first last
  | .dispatch e => Laws.HostIssuable.dispatch e

/-- Settles O5: `decode` answers host commands only, and exactly those have a word. -/
theorem microOperationsAreNotIssuable : Obligations.MicroOperationsAreNotIssuable := by
  unfold Obligations.MicroOperationsAreNotIssuable
  refine ⟨isHostCommand_decode, fun i h => ?_⟩
  rw [← Option.not_isSome_iff_eq_none, encode_isSome_eq_isHostCommand, h]
  exact Bool.false_ne_true

/-! ### Encoding -/

theorem encode_start : encode .start = some (rowWord 1#4 0#0) := rfl
theorem encode_stop : encode .stop = some (rowWord 2#4 0#0) := rfl
theorem encode_push (n : BitVec 16) : encode (.push n) = some (rowWord 3#4 n) := rfl
theorem encode_ack (mask : BitVec 8) : encode (.ack mask) = some (rowWord 4#4 mask) := rfl
theorem encode_rdreg (idx : BitVec 4) : encode (.rdreg idx) = some (rowWord 5#4 idx) := rfl

/-- Decoding and encoding are inverse to each other on the well-formed instructions. -/
theorem decode_eq_iff (w : Word) (i : Instr) : decode w = i ↔ wellFormed i = true ∧ encode i = some w := by
  obtain ⟨hstart, hstop, hpush, hack, hrdreg, hillegal⟩ := decode_eq_iff_inRow w
  cases i with
  | start => rw [hstart, encode_start, ← rowWord_noOperand_eq_iff]; simp [wellFormed]
  | stop => rw [hstop, encode_stop, ← rowWord_noOperand_eq_iff]; simp [wellFormed]
  | push n => rw [hpush, encode_push, ← rowWord_eq_iff (by decide)]; simp [wellFormed]
  | ack mask => rw [hack, encode_ack, ← rowWord_eq_iff (by decide)]; simp [wellFormed]
  | rdreg idx => rw [hrdreg, encode_rdreg, ← rowWord_eq_iff (by decide)]; simp [wellFormed]
  | illegal v =>
    rw [hillegal, wellFormed_illegal_iff, encode, Option.some_inj, and_comm]
    exact and_congr_left (by rintro rfl; rfl)
  | _ =>
    -- A micro-operation: no word decodes to it, and it has no word.
    exact ⟨fun h => absurd (h ▸ isHostCommand_decode w) nofun, nofun⟩

/-- Settles O1: the direction from the instruction to its word and back. -/
theorem decodeOfEncode : Obligations.DecodeOfEncode := by
  unfold Obligations.DecodeOfEncode
  exact fun i w hwf henc => (decode_eq_iff w i).mpr ⟨hwf, henc⟩

/-- Settles O2: the direction from the word to its instruction and back. -/
theorem encodeOfDecode : Obligations.EncodeOfDecode := by
  unfold Obligations.EncodeOfDecode
  exact fun w => ((decode_eq_iff w _).mp rfl).symm

end Sys2Proof
end

section
/-! PROOFS. The Frame Buffer Manager on any buffer: the byte each offset reads after APPEND, EVICT and RESET
(40_buffer_manager.md R100 to R105).  The laws of exact buffers serve R105 only; R100 to R104 need no canonical form. -/

namespace Sys2Proof.Machine

/-! ### Reads after the writes of APPEND and after the shift of EVICT -/

namespace Memory

/-- Writing consecutive offsets from `a` leaves every offset outside them as it was (20_memory.md R53). -/
theorem read_writeList_outside (m : Memory) {a x : Nat} {v : List Byte} (h : x < a ∨ a + v.length ≤ x) :
    read (writeList m a v) x = read m x := by
  induction v generalizing m a with
  | nil => rfl
  | cons b v ih =>
    rw [List.length_cons] at h
    calc read (writeList (write m a b) (a + 1) v) x
      _ = read (write m a b) x := ih _ (by omega)
      _ = read m x := read_write_other m b (by omega)

/-- Writing consecutive offsets from `a` puts byte `i` at `a + i`: no later write returns to it (20_memory.md R53). -/
theorem read_writeList_inside (m : Memory) (a : Nat) {v : List Byte} {i : Nat} (h : i < v.length) :
    read (writeList m a v) (a + i) = v[i]? := by
  induction v generalizing m a i with
  | nil => cases h
  | cons b v ih =>
    cases i with
    | zero => exact (read_writeList_outside _ (.inl (Nat.lt_succ_self a))).trans (read_write_same m a b)
    | succ i =>
      calc read (writeList (write m a b) (a + 1) v) (a + (i + 1))
        _ = read (writeList (write m a b) (a + 1) v) (a + 1 + i) := by rw [Nat.add_assoc, Nat.add_comm 1 i]
        _ = v[i]? := ih _ _ (Nat.lt_of_succ_lt_succ h)
        _ = (b :: v)[i + 1]? := List.getElem?_cons_succ.symm

/-- After the shift, an offset that stays occupied reads what stood `off` bytes further on.  Two cells at or above `off` keep
apart when both move down by `off`, so the first cell read stays the first. -/
theorem read_shift (m : Memory) {off occ i : Nat} (h : off + i < occ) : read (shift m off occ) i = read m (off + i) := by
  induction m with
  | nil => rfl
  | cons c m ih =>
    obtain ⟨x, b⟩ := c
    simp only [shift, List.filter_cons, read] at ih ⊢
    split
    · rename_i hmoves
      have hlow : off ≤ x := of_decide_eq_true (Bool.and_eq_true_iff.mp hmoves).1
      have hfirst : x - off = i ↔ x = off + i := by omega
      simp only [List.map_cons, read, hfirst, ih]
    · rename_i hdropped
      have hother : x ≠ off + i := by
        rintro rfl
        simp [h] at hdropped
      rw [ih, if_neg hother]

end Memory

/-! ### The micro-operations as next states -/

/-- APPEND within `C` writes the bytes that fit at `occ` (40_buffer_manager.md R100). -/
theorem exec_append {s : State} (hb : s.occ ≤ s.cfg.capacity) (d : List Byte) :
    exec (.append d) s = .next { s with
      buf := Memory.writeList s.buf s.occ (d.take (min d.length (s.cfg.capacity - s.occ)))
      occ := s.occ + min d.length (s.cfg.capacity - s.occ)
      micro := some (.count (min d.length (s.cfg.capacity - s.occ))) } := by
  have hfits : s.occ + (d.take (min d.length (s.cfg.capacity - s.occ))).length ≤ s.cfg.capacity := by
    rw [List.length_take]; omega
  simp only [exec, execAppend, append, memWrite, if_pos hfits]

/-- EVICT within `occ` shifts the buffer (40_buffer_manager.md R102). -/
theorem exec_evict {s : State} {off : Nat} (ho : off ≤ s.occ) : exec (.evict off) s =
    .next { s with buf := Memory.shift s.buf off s.occ, occ := s.occ - off, micro := none } := by
  simp only [exec, execEvict, evict, if_pos ho]

/-- EVICT on an exact buffer drops the front of its window (40_buffer_manager.md R102). -/
theorem exec_evict_exact {s : State} (h : BufferExact s) {off : Nat} (ho : off ≤ s.occ) :
    exec (.evict off) s = .next { withWindow ((window s).drop off) s with micro := none } := by
  simp only [exec, execEvict, evict_exact h ho]

/-- RESET leaves the empty buffer (40_buffer_manager.md R104). -/
theorem exec_reset (s : State) : exec .reset s = .next { emptyBuffer s with micro := none } := rfl

/-! ### The statements -/

/-- Settles O15: the bytes that fit are written at `occ`, and reads of those offsets and of the others are told apart. -/
theorem appendTakesWhatFits : Obligations.AppendTakesWhatFits := by
  unfold Obligations.AppendTakesWhatFits
  intro s d hb n
  have hlen : (d.take n).length = n := List.length_take_of_le (Nat.min_le_left ..)
  refine ⟨Memory.writeList s.buf s.occ (d.take n), exec_append hb d, fun i hi => ?_, fun a ha => ?_⟩
  · calc Memory.read (Memory.writeList s.buf s.occ (d.take n)) (s.occ + i)
      _ = (d.take n)[i]? := Memory.read_writeList_inside _ _ (hlen.symm ▸ hi)
      _ = d[i]? := List.getElem?_take_of_lt hi
  · exact Memory.read_writeList_outside _ (hlen.symm ▸ ha)

/-- Settles O16: the shifted buffer read below the new `occ`, and the fault beyond `occ`. -/
theorem evictShiftsTheRest : Obligations.EvictShiftsTheRest := by
  unfold Obligations.EvictShiftsTheRest
  intro s off
  constructor
  · exact fun ho => ⟨_, exec_evict ho, fun i hi => Memory.read_shift s.buf (by omega)⟩
  · intro ho
    simp only [exec, execEvict, evict_beyond ho]

/-- Settles O18: of an exact buffer's window nothing is left after `occ` bytes are dropped, and all of it after none. -/
theorem resetIsEvictionOfEverything : Obligations.ResetIsEvictionOfEverything := by
  unfold Obligations.ResetIsEvictionOfEverything
  intro s h
  constructor
  · have hall : (window s).drop s.occ = [] := List.drop_of_length_le (occ_eq_length h).ge
    rw [exec_evict_exact h le_rfl, hall, exec_reset, emptyBuffer_eq]
  · rw [exec_evict_exact h (Nat.zero_le _), List.drop_zero, withWindow_window h]

/-- Settles O17: the empty buffer is the witness. -/
theorem bufferResetEmpties : Obligations.BufferResetEmpties := by
  unfold Obligations.BufferResetEmpties
  exact fun s => ⟨[], exec_reset s⟩

end Sys2Proof.Machine
end

section
/-! PROOFS. Every frame handed to the decoder is whole: a step presents a request only for the frame that stands at the front of
the buffer, and while it is outstanding the buffer still begins with it (41_synchronizer.md R124, R132, R133; 20_memory.md R61). -/

namespace Sys2Proof.Machine

/-! ### The frame at the front of the buffer -/

/-- A request for a whole frame: `[0, dec_end)`, beginning with the marker, and so short that the next marker fits after it
(41_synchronizer.md R132, R133).  `Framed.shape` says this of every request. -/
def WholeFrame (c : Config) (r : DecoderRequest) : Prop :=
  r.decStart = 0 ∧ r.frame.length = r.decEnd.toNat ∧ c.markerLength ≤ r.frame.length ∧
    r.frame.length + c.markerLength ≤ c.capacity ∧ r.frame.take c.markerLength = c.marker

/-- A length below `2^32` crosses the request port unchanged (30_encoding.md R81). -/
theorem toNat_rangeField {e : Nat} (he : e < 2 ^ 32) : (rangeField e).toNat = e := by
  rw [rangeField, BitVec.ofInt_natCast, BitVec.toNat_ofNat, Nat.mod_eq_of_lt he]

/-- The frame outstanding in a state of the invariant is occupied. -/
theorem Inv.length_frame {s : State} (h : Inv s) {e : Nat} (hreq : s.decReq = some e) : ((window s).take e).length = e := by
  obtain ⟨-, -, -, -, hfits, -⟩ := h.pending_of_decReq hreq
  rw [List.length_take, ← occ_eq_length h.exact]
  omega

/-- The frame outstanding in a state of the invariant is whole: a marker stands at 0, the next one at `e`, both occupied. -/
theorem Inv.wholeFrame {s : State} (h : Inv s) {e : Nat} (hreq : s.decReq = some e) :
    WholeFrame s.cfg ⟨rangeField 0, rangeField e, (window s).take e⟩ := by
  obtain ⟨-, hmarker, -, hcap⟩ := (configLegal_iff _).mp h.legal
  obtain ⟨-, -, -, hlow, hfits, hat, -⟩ := h.pending_of_decReq hreq
  have hbound := h.bound
  have hlen := h.length_frame hreq
  refine ⟨rfl, ?_, ?_, ?_, ?_⟩
  · rw [hlen, toNat_rangeField (by omega)]
  · rw [hlen]; exact hlow
  · rw [hlen]; omega
  · have hfront : s.cfg.marker <+: window s := (markerAt_exact h.exact hmarker 0).mp hat
    calc ((window s).take e).take s.cfg.markerLength
      _ = (window s).take s.cfg.markerLength := by rw [List.take_take, Nat.min_eq_left hlow]
      _ = (window s).take s.cfg.marker.length := by rw [hmarker]
      _ = s.cfg.marker := (List.prefix_iff_eq_take.mp hfront).symm

/-! ### How a step leaves the requests -/

/-- A READY block has no request outstanding, so it is enough that it made none. -/
theorem Framed.of_ready {s t : State} (h : Framed s) (ht : Inv t) (hready : t.seq = .ready) (hcfg : t.cfg = s.cfg)
    (hreq : t.requests ⊆ s.requests) : Framed t where
  shape r hr := hcfg ▸ h.shape r (hreq hr)
  outstanding _ he := nomatch he.symm.trans (ht.ready hready).2

/-- Nothing changes while the buffer, the requests and the configuration stay. -/
theorem Framed.of_frozen {s t : State} (h : Framed s) (hcfg : t.cfg = s.cfg) (hbuf : t.buf = s.buf)
    (hdec : t.decReq = s.decReq) (hreq : t.requests = s.requests) : Framed t where
  shape r hr := hcfg ▸ h.shape r (hreq ▸ hr)
  outstanding e he := by
    rw [hreq, window, hbuf]
    exact h.outstanding e (hdec ▸ he)

/-- One more request is presented, for the frame at the front of the buffer. -/
theorem Framed.of_dispatch {s t : State} (h : Framed s) (ht : Inv t) (hcfg : t.cfg = s.cfg) {e : Nat} (hdec : t.decReq = some e)
    (hreq : t.requests = s.requests ++ [⟨rangeField 0, rangeField e, (window t).take e⟩]) : Framed t where
  shape r hr := by
    rcases List.mem_append.mp (hreq ▸ hr) with hold | hnew
    · exact hcfg ▸ h.shape r hold
    · obtain rfl := List.mem_singleton.mp hnew
      exact ht.wholeFrame hdec
  outstanding e' he' := by
    obtain rfl := Option.some.inj (hdec.symm.trans he')
    exact ⟨_, hreq ▸ List.getLast?_concat, rfl, ht.length_frame hdec⟩

/-- A stretch of a PUSH makes no request and responds, or waits for the answer to one (42_driver_commands.md R145, R148). -/
theorem Stretch.framed {k n : Nat} {gs : List EventRecord} {s s' t : State} (hst : Stretch k n gs s' t) (h : Framed s)
    (hcfg : s'.cfg = s.cfg) (hreq : s'.requests = s.requests) : Framed t := by
  have hcfg' : t.cfg = s.cfg := hst.cfg.trans hcfg
  rcases hst.ending with ⟨hready, -, hsame⟩ | ⟨-, -, -, -, e, hdec, hmore⟩
  · exact h.of_ready hst.inv hready hcfg' (by rw [hsame, hreq]; exact List.Subset.refl _)
  · exact h.of_dispatch hst.inv hcfg' hdec (hreq ▸ hmore)

/-! ### Each kind of step -/

/-- An accepted PUSH is a stretch in Active, and a CMD_ERR elsewhere (42_driver_commands.md R144, R145). -/
theorem execPush_keeps_framed {s t : State} (h : Inv s) (hf : Framed s) (ht : Inv t) (hs : s.seq = .ready) {c : HostCommand}
    {rest : List HostCommand} {n : BitVec 16} (hexec : execPush n (accept c rest s) = .next t) : Framed t := by
  by_cases hactive : s.life = .active
  · obtain ⟨_, _, t', ht', hst, -⟩ := execPush_stretch h hs hactive c rest n
    obtain rfl := Host.Outcome.next.inj (ht'.symm.trans hexec)
    exact hst.framed hf rfl rfl
  · rcases execPush_next hexec with ⟨ha, -⟩ | ⟨-, rfl⟩
    · exact absurd ha hactive
    · exact hf.of_ready ht rfl rfl (List.Subset.refl _)

/-- The decoder's answer to a PUSH: the fatal stop requests nothing, any other goes on as a stretch from the evicted frame
(42_driver_commands.md R149 to R151). -/
theorem frameDecoded_keeps_framed {s t : State} (h : Inv s) (hf : Framed s) (ht : Inv t) {e : Nat} (hdec : s.decReq = some e)
    {c : PushLoop} {r : DecoderResult} (hanswer : frameDecoded c e r (requestAnswered s) = .next t) : Framed t := by
  by_cases hfatal : r = .fatal
  · subst hfatal
    obtain rfl := Host.Outcome.next.inj hanswer
    exact hf.of_ready ht rfl rfl (List.Subset.refl _)
  · obtain ⟨hbusy, -, hpending⟩ := h.pending_of_decReq hdec
    obtain ⟨t', ht', hst, -⟩ := frameDecoded_continues h hpending hbusy c hfatal
    obtain rfl := Host.Outcome.next.inj (ht'.symm.trans hanswer)
    refine hst.framed hf ?_ ?_
    · rw [countFrame_cfg, withWindow_cfg]; split <;> rfl
    · rw [countFrame_requests, withWindow_requests]; split <;> rfl

/-- A READY block makes a request only by an accepted PUSH. -/
theorem step_ready_keeps_framed {s t : State} (h : Inv s) (hf : Framed s) (hs : s.seq = .ready) (hstep : step s = .next t) :
    Framed t := by
  have ht : Inv t := stepKeepsInvariant s t h hstep
  rcases step_effect_cases hstep with ⟨c, rest, -, hq, hcommand⟩ | ⟨_, rest, -, -, -, rfl⟩ | ⟨_, _, e, _, -, -, hdec, -⟩ | hact
  · rcases hcommand with ⟨-, rfl | rfl⟩ | ⟨-, rfl | rfl⟩ | ⟨n, hword, -⟩ | ⟨_, -, rfl⟩ | ⟨_, rfl⟩ | ⟨_, rfl⟩
    case inr.inr.inl =>
      rw [step_accepts h.legal hs hq, hword] at hstep
      exact execPush_keeps_framed h hf ht hs hstep
    -- Every other command responds and leaves the requests as they are.
    all_goals exact hf.of_ready ht rfl rfl (List.Subset.refl _)
  · exact hf.of_ready ht rfl rfl (List.nil_subset _)
  · exact nomatch hdec.symm.trans (h.ready hs).2
  · rw [hact] at ht ⊢
    exact hf.of_ready ht hs rfl (List.Subset.refl _)

/-- A BUSY block makes a request only where the decoder's answer resumes the PUSH (10_state.md R30). -/
theorem step_busy_keeps_framed {s t : State} (h : Inv s) (hf : Framed s) (hs : s.seq = .busy) (hstep : step s = .next t) :
    Framed t := by
  have ht : Inv t := stepKeepsInvariant s t h hstep
  have hn := nextCommand_busy hs
  by_cases hanswered : ∃ code rest, s.inputs = .decoderResponse code :: rest
  · obtain ⟨code, rest, hi⟩ := hanswered
    obtain ⟨-, hpush, e, hdec, -⟩ := h.busy hs
    obtain ⟨c, hc⟩ := Option.isSome_iff_exists.mp hpush
    rw [step_receives h.legal hn hi] at hstep
    simp only [receive, decoderResponds, hdec, hc] at hstep
    exact frameDecoded_keeps_framed (h.withInputs rest) (hf.of_frozen rfl rfl rfl rfl) ht hdec hstep
  by_cases hreset : ∃ rest, s.inputs = .hardwareReset :: rest
  · obtain ⟨rest, hi⟩ := hreset
    rw [step_receives h.legal hn hi] at hstep
    obtain rfl := Host.Outcome.next.inj hstep
    exact framed_resetWith s.cfg |>.of_frozen rfl rfl rfl rfl
  · obtain ⟨hbuf, -, hdec, -, -, hreq, -⟩ := pendingFrameIsFrozen s t hs hstep
      (fun code rest hi => hanswered ⟨code, rest, hi⟩) (fun rest hi => hreset ⟨rest, hi⟩)
    exact hf.of_frozen (configurationIsConstant s t hstep) hbuf hdec hreq

/-- Settles O46: whatever a step hands to the decoder is the frame pending in the state after it, which `Inv` says is whole. -/
theorem stepKeepsFramesWhole : Obligations.StepKeepsFramesWhole := by
  unfold Obligations.StepKeepsFramesWhole
  intro s t h hf hstep
  cases hs : s.seq with
  | ready => exact step_ready_keeps_framed h hf hs hstep
  | busy => exact step_busy_keeps_framed h hf hs hstep

end Sys2Proof.Machine
end

section
/-! PROOFS. The Synchronizer and the range validator run by themselves: what FIND_MARKER, COMPUTE_RANGE and VALIDATE answer and
leave (41_synchronizer.md R120 to R129, R133). -/

namespace Sys2Proof.Machine

/-! ### FIND_MARKER -/

/-- One marker byte is compared equal exactly when both bytes are there and the same (41_synchronizer.md R120). -/
theorem markerByteAt_iff (o j : Nat) (s : State) :
    markerByteAt o j s = true ↔ ∃ b, Memory.read s.buf (o + j) = some b ∧ s.cfg.marker[j]? = some b := by
  unfold markerByteAt
  cases Memory.read s.buf (o + j) with
  | none => simp
  | some b =>
    cases s.cfg.marker[j]? with
    | none => simp
    | some m => simp [eq_comm (a := m)]

/-- A whole match, byte by byte (41_synchronizer.md R120). -/
theorem markerAt_iff (o : Nat) (s : State) : markerAt o s = true ↔
    ∀ j, j < s.cfg.markerLength → ∃ b, Memory.read s.buf (o + j) = some b ∧ s.cfg.marker[j]? = some b := by
  simp only [markerAt, List.all_eq_true, List.mem_range, markerByteAt_iff]

/-- Settles O19: the search answers the lowest whole match; an offset below a match that fits fits too. -/
theorem findMarkerAnswersLowestMatch : Obligations.FindMarkerAnswersLowestMatch := by
  unfold Obligations.FindMarkerAnswersLowestMatch
  simp only [← markerAt_iff]
  intro s origin
  refine ⟨findMarker origin s, rfl, fun o => ?_, ?_⟩
  · rw [findMarker_eq_some_iff]
    constructor
    · rintro ⟨horigin, hfits, hat, hlowest⟩
      exact ⟨horigin, ⟨hfits, hat⟩, fun x hx hlt hmatch => by simp [hlowest x hx hlt] at hmatch⟩
    · rintro ⟨horigin, ⟨hfits, hat⟩, hlowest⟩
      refine ⟨horigin, hfits, hat, fun x hx hlt => Bool.eq_false_iff.mpr fun hx' => hlowest x hx hlt ⟨?_, hx'⟩⟩
      omega
  · rw [findMarker_eq_none_iff]
    exact forall₂_congr fun o _ => by rw [not_and, Bool.not_eq_true]

/-! ### COMPUTE_RANGE -/

/-- The buffer after the bytes before a marker at `st` are evicted, if there are any (41_synchronizer.md R124). -/
def frontEvicted (st : Nat) (s : State) : Memory := if 0 < st then Memory.shift s.buf st s.occ else s.buf

/-- What COMPUTE_RANGE answers once a marker is found at `st`, by its second search (41_synchronizer.md R125, R126). -/
def foundResult (st : Nat) : Option Nat → RangeResult
  | none => ⟨.incomplete, ⟨0, -1⟩, decide (0 < st)⟩
  | some en => ⟨.valid, ⟨0, (en : Int) - (st : Int)⟩, decide (0 < st)⟩

/-- What stays occupied reads as it did, `st` lower (41_synchronizer.md R124, 40_buffer_manager.md R102). -/
theorem read_frontEvicted {st i : Nat} {s : State} (h : i < s.occ - st) :
    Memory.read (frontEvicted st s) i = Memory.read s.buf (st + i) := by
  unfold frontEvicted
  split
  · exact Memory.read_shift s.buf (by omega)
  · rw [show st = 0 by omega, Nat.zero_add]

/-- COMPUTE_RANGE over any buffer that holds a marker: a match lies in the window, so the bytes before it can be evicted. -/
theorem computeRange_of_marker {s : State} {st : Nat} (hf : findMarker 0 s = some st) :
    computeRange s = .ok (foundResult st (findMarker (st + s.cfg.markerLength) s),
      { s with buf := frontEvicted st s, occ := s.occ - st }) := by
  obtain ⟨-, hfits, -⟩ := (findMarker_eq_some_iff _ _ _).mp hf
  by_cases hst : 0 < st
  · have hevict : evict st s = .ok { s with buf := frontEvicted st s, occ := s.occ - st } := by
      rw [evict, if_pos (by omega), frontEvicted, if_pos hst]
    simp only [computeRange, hf, gt_iff_lt, if_pos hst, hevict, foundResult]
    cases findMarker (st + s.cfg.markerLength) s <;> simp [hst]
  · obtain rfl : st = 0 := by omega
    simp only [computeRange, hf, gt_iff_lt, Nat.lt_irrefl, if_false, foundResult]
    cases findMarker (0 + s.cfg.markerLength) s <;> rfl

/-- COMPUTE_RANGE run by itself leaves its answer in `micro`. -/
theorem exec_computeRange {s t : State} {r : RangeResult} (h : computeRange s = .ok (r, t)) :
    exec .computeRange s = .next { t with micro := some (.range r) } := by
  simp only [exec, execComputeRange, h]

/-- Settles O21: without a marker nothing is done; with one the bytes before it go and the second search decides. -/
theorem computeRangeOutcomes : Obligations.ComputeRangeOutcomes := by
  unfold Obligations.ComputeRangeOutcomes
  intro s
  refine ⟨fun hnone => exec_computeRange (computeRange_nosync hnone), fun st hf => ?_⟩
  have hrun := exec_computeRange (computeRange_of_marker hf)
  refine ⟨frontEvicted st s, fun i hi => read_frontEvicted hi, ?_, fun hsecond => ?_, fun en hsecond => ?_⟩
  · rintro rfl; rfl
  · rw [hrun, hsecond]; rfl
  · rw [hrun, hsecond]; rfl

/-! ### VALIDATE -/

/-- VALIDATE as the predicate on integers (41_synchronizer.md R128). -/
theorem validate_iff (capacity : Nat) (r : FrameRange) :
    validate capacity r = true ↔ 0 ≤ r.first ∧ r.first < r.last ∧ r.last - r.first ≤ capacity := by
  simp only [validate, Bool.and_eq_true, decide_eq_true_eq, and_assoc]

/-- Settles O23: the answer is `validate` over the block's capacity. -/
theorem validateIsThePredicate : Obligations.ValidateIsThePredicate := by
  unfold Obligations.ValidateIsThePredicate
  exact fun s first last => ⟨_, rfl, validate_iff s.cfg.capacity ⟨first, last⟩⟩

/-- Settles O22: both sentinel ranges end below their start, and a found range lies between two whole markers. -/
theorem validRangeExactlyWhenValidated : Obligations.ValidRangeExactlyWhenValidated := by
  unfold Obligations.ValidRangeExactlyWhenValidated
  intro s t r hlegal hexact hbound hrun
  rcases computeRange_cases hexact hlegal hbound with
    ⟨-, hnosync⟩ | ⟨st, -, -, hocc, -, -, ⟨-, hincomplete⟩ | ⟨e, -, hlow, hfits, -, hvalid, hfound⟩⟩
  · obtain ⟨rfl, rfl⟩ := Prod.mk.inj (Except.ok.inj (hnosync.symm.trans hrun))
    simp [validate_iff]
  · obtain ⟨rfl, rfl⟩ := Prod.mk.inj (Except.ok.inj (hincomplete.symm.trans hrun))
    simp [validate_iff]
  · obtain ⟨rfl, rfl⟩ := Prod.mk.inj (Except.ok.inj (hfound.symm.trans hrun))
    refine ⟨iff_of_true hvalid rfl, fun _ => ⟨rfl, Int.ofNat_le.mpr hlow, Int.ofNat_le.mpr hfits, ?_⟩⟩
    rw [hocc]; omega

end Sys2Proof.Machine
end

section
/-! PROOFS. The host commands other than PUSH: START, STOP, ACK, RDREG and ILLEGAL, and the step that accepts one
(42_driver_commands.md R140 to R143, R158 to R160). -/

namespace Sys2Proof.Machine

/-- Settles O6: acceptance of the oldest command is `accept`. -/
theorem stepRunsAcceptedCommand : Obligations.StepRunsAcceptedCommand := by
  unfold Obligations.StepRunsAcceptedCommand
  intro s c rest hlegal hready hport
  exact step_accepts hlegal hready hport

/-! ### START and STOP -/

theorem exec_start_active {s : State} (h : s.life = .active) : exec .start s = .next (commandError 0x10000000 s) := by
  simp only [exec, execStart, if_pos h]
  rfl

theorem exec_start_allocated {s : State} (h : s.life ≠ .active) (ha : s.allocOk = true) :
    exec .start s = .next (startActive s) := by
  simp only [exec, execStart, if_neg h, if_pos ha]

theorem exec_start_refused {s : State} (h : s.life ≠ .active) (ha : s.allocOk = false) :
    exec .start s = .next (fatalStop .initerr 0 .initErr 0 s) := by
  simp only [exec, execStart, if_neg h, ha, Bool.false_eq_true, if_false]

/-- Settles O9: a CMD_ERR in Active, elsewhere an empty Active buffer or the fatal stop, by the draw of `alloc_ok`. -/
theorem startResult : Obligations.StartResult := by
  unfold Obligations.StartResult
  exact fun s => ⟨exec_start_active, fun h ha => ⟨[], exec_start_allocated h ha⟩, fun h ha => ⟨[], exec_start_refused h ha⟩⟩

theorem exec_stop_active {s : State} (h : s.life = .active) :
    exec .stop s = .next (respond .ok 0 (emptyBuffer { s with life := .stopped })) := by
  simp only [exec, execStop, if_pos h]

theorem exec_stop_inactive {s : State} (h : s.life ≠ .active) : exec .stop s = .next (respond .ok 0 s) := by
  simp only [exec, execStop, if_neg h]

/-- After a STOP the block is not Active, and a second STOP finds nothing to release (42_driver_commands.md R143). -/
theorem exec_stop_twice {s t : State} (h : exec .stop s = .next t) : exec .stop t = .next (respond .ok 0 t) := by
  by_cases hlife : s.life = .active
  · obtain rfl := Host.Outcome.next.inj ((exec_stop_active hlife).symm.trans h)
    exact exec_stop_inactive nofun
  · obtain rfl := Host.Outcome.next.inj ((exec_stop_inactive hlife).symm.trans h)
    exact exec_stop_inactive hlife

/-- What a STOP answers has no transient and no payload, so a further response changes only the response port. -/
theorem respond_after_stop {s t : State} (h : exec .stop s = .next t) :
    respond .ok 0 t = { t with responses := t.responses ++ [⟨.ok, 0⟩] } := by
  obtain rfl := Host.Outcome.next.inj h
  rfl

/-- Settles O10: by `life`, and a BUSY block accepts nothing. -/
theorem stopResult : Obligations.StopResult := by
  unfold Obligations.StopResult
  refine fun s => ⟨fun h => ⟨[], exec_stop_active h⟩, exec_stop_inactive, fun t ht => ?_, fun _ _ hlegal hbusy _ _ => ?_⟩
  · rw [exec_stop_twice ht, respond_after_stop ht]
  · exact step_waits hlegal (nextCommand_busy hbusy)

/-! ### ACK -/

/-- `evt_pending` is low exactly when EVENTS is 0 (30_encoding.md R80). -/
theorem evtPending_eq_false_iff (s : State) : evtPending s = false ↔ s.events = 0 := by
  simp [evtPending]

/-- Settles O11: the new EVENTS is `clearEvents`, read bit by bit. -/
theorem ackClearsNamedBits : Obligations.AckClearsNamedBits := by
  unfold Obligations.AckClearsNamedBits
  intro s mask
  refine ⟨clearEvents s.events mask, rfl, fun i hi => ?_, ?_, fun t ht => ?_⟩
  · rw [getLsbD_clearEvents, decide_eq_true hi, Bool.and_true]
  · rw [getLsbD_clearEvents, decide_eq_false (Nat.lt_irrefl 7), Bool.and_false, Bool.not_false, Bool.and_true]
  · obtain rfl := Host.Outcome.next.inj ht
    exact evtPending_eq_false_iff _

/-! ### RDREG -/

/-- A register's index selects it (10_state.md R31). -/
theorem exec_rdreg_regIndex (r : Reg) (s : State) :
    exec (.rdreg (regIndex r)) s = .next (respond .ok (regValue r s) s) := by
  cases r <;> rfl

/-- No register stands at the indices 6 to 15 (10_state.md R38). -/
theorem regOfIndex_reserved : ∀ idx : BitVec 4, 6 ≤ idx.toNat → regOfIndex idx = none := by decide

theorem exec_rdreg_reserved {idx : BitVec 4} (h : 6 ≤ idx.toNat) (s : State) :
    exec (.rdreg idx) s = .next (commandError (0x50000000 ||| idx.setWidth 32) s) := by
  simp only [exec, execRdreg, regOfIndex_reserved idx h]
  rfl

/-- RDREG of STATE answers the code of `life` (10_state.md R22, R32). -/
theorem exec_rdreg_state {s : State} {l : Life} (h : s.life = l) :
    exec (.rdreg 0) s = .next (respond .ok ((lifeCode l).setWidth 32) s) :=
  h ▸ exec_rdreg_regIndex .state s

/-- Settles O12: each register by its index, the reserved indices by CMD_ERR. -/
theorem rdregReadsItsRegister : Obligations.RdregReadsItsRegister := by
  unfold Obligations.RdregReadsItsRegister
  exact fun s => ⟨exec_rdreg_state, exec_rdreg_state, exec_rdreg_state, exec_rdreg_regIndex .occ s,
    exec_rdreg_regIndex .frames s, exec_rdreg_regIndex .events s, exec_rdreg_regIndex .cap s, exec_rdreg_regIndex .mlen s,
    fun _ hidx => exec_rdreg_reserved hidx s⟩

/-! ### The ways to a CMD_ERR -/

/-- A PUSH outside Active takes no byte (42_driver_commands.md R144, R160). -/
theorem exec_push_inactive {s : State} (h : s.life ≠ .active) (n : BitVec 16) :
    exec (.push n) s = .next (commandError (0x30000000 ||| n.setWidth 32) s) := by
  simp only [exec, execPush, if_neg h]
  rfl

/-- The opcode 1 has one legal word, so any other word with it is ILLEGAL (30_encoding.md R84). -/
theorem decode_of_opcode_start {w : Word} (hop : w.extractLsb' 28 4 = 1) (hw : w ≠ 0x10000000) : decode w = .illegal w := by
  have hrow : ¬ InRow 1#4 0 w := fun hrow => hw ((rowWord_noOperand_eq_iff 1#4 w).mpr hrow).symm
  have hopcode : opcodeField w = 1 := hop
  rcases decode_row_cases w with ⟨h, -⟩ | ⟨⟨h, -⟩, -⟩ | ⟨⟨h, -⟩, -⟩ | ⟨⟨h, -⟩, -⟩ | ⟨⟨h, -⟩, -⟩ | ⟨-, h⟩
  · exact absurd h hrow
  case inr.inr.inr.inr.inr => exact h
  -- The four other rows have another opcode.
  all_goals exact absurd (hopcode.symm.trans h) (by decide)

/-- Settles O13: the four ways all end in `commandError`. -/
theorem illegalAndWrongStateCommands : Obligations.IllegalAndWrongStateCommands := by
  unfold Obligations.IllegalAndWrongStateCommands
  exact fun s => ⟨fun _ => rfl, fun _ hidx => exec_rdreg_reserved hidx s, exec_start_active, exec_push_inactive, by decide,
    fun _ => decode_of_opcode_start⟩

end Sys2Proof.Machine
end

section
/-! PROOFS. DISPATCH and the decoder's answers: the request, the fatal stop, the frame evicted and counted, and the guard of the
cycle (42_driver_commands.md R147 to R151, R154). -/

namespace Sys2Proof.Machine

/-! ### DISPATCH run by itself -/

/-- A natural number crosses the request port modulo `2^32` (30_encoding.md R81). -/
theorem rangeField_natCast (e : Nat) : rangeField e = BitVec.ofNat 32 e := BitVec.ofInt_natCast ..

/-- DISPATCH on an exact buffer presents the front of its window (42_driver_commands.md R148). -/
theorem exec_dispatch_exact {s : State} (h : BufferExact s) {e : Nat} (he : e ≤ s.occ) :
    exec (.dispatch e) s = .next { s with
      decReq := some e, requests := s.requests ++ [⟨0, BitVec.ofNat 32 e, (window s).take e⟩], micro := none } := by
  simp only [exec, execDispatch, dispatch_exact h he, rangeField_natCast]
  rfl

/-- The decoder's codes (30_encoding.md R79). -/
theorem decoderResult_iff : ∀ code : BitVec 2, (decoderResult code = .ok ↔ code = 0) ∧
    (decoderResult code = .recoverable ↔ code = 1) ∧ (decoderResult code = .fatal ↔ code = 2 ∨ code = 3) := by decide

/-- The answer to a DISPATCH run by itself is its result (42_driver_commands.md R148). -/
theorem decoderResponds_alone {s : State} {e : Nat} (hreq : s.decReq = some e) (hpush : s.push = none) (code : BitVec 2) :
    decoderResponds code s = .next { s with decReq := none, micro := some (.decoded (decoderResult code)) } := by
  simp only [decoderResponds, hreq, hpush]

/-- Settles O24: the request half on an exact buffer, and the answer half by the code. -/
theorem dispatchPresentsFrameAndReturnsAnswer : Obligations.DispatchPresentsFrameAndReturnsAnswer := by
  unfold Obligations.DispatchPresentsFrameAndReturnsAnswer
  refine ⟨fun s e hexact he => ⟨(window s).take e, exec_dispatch_exact hexact he, ?_, fun i hi => ?_⟩,
    fun s e code rest hlegal hn hreq hpush hi => ⟨decoderResult code, ?_, decoderResult_iff code⟩⟩
  · exact List.length_take_of_le (occ_eq_length hexact ▸ he)
  · rw [List.getElem?_take_of_lt hi, read_exact hexact]
  · exact (step_receives hlegal hn hi).trans (decoderResponds_alone (s := { s with inputs := rest }) hreq hpush code)

/-! ### The answer to a PUSH -/

/-- The answer to a waiting PUSH is what the decoder's result does to it (42_driver_commands.md R149 to R151). -/
theorem step_answers_push {s : State} (hlegal : configLegal s.cfg = true) (hbusy : s.seq = .busy) {e : Nat}
    (hreq : s.decReq = some e) {c : PushLoop} (hpush : s.push = some c) {code : BitVec 2} {rest : List Input}
    (hi : s.inputs = .decoderResponse code :: rest) :
    step s = frameDecoded c e (decoderResult code) (requestAnswered { s with inputs := rest }) := by
  rw [step_receives hlegal (nextCommand_busy hbusy) hi]
  simp only [receive, decoderResponds, hreq, hpush]

/-- Settles O26: codes 2 and 3 are the fatal stop, after which a PUSH is a CMD_ERR. -/
theorem fatalAnswerStops : Obligations.FatalAnswerStops := by
  unfold Obligations.FatalAnswerStops
  intro s e c code rest hlegal hbusy hreq hpush hi hcode
  have hfatal : decoderResult code = .fatal := not_not.mp fun hne =>
    Nat.not_lt_of_le hcode ((decoderResult_ne_fatal code).mp hne)
  refine ⟨[], _, ?_, rfl, fun n => ⟨_, exec_push_inactive ?_ n, rfl, rfl⟩⟩
  · rw [step_answers_push hlegal hbusy hreq hpush hi, hfatal]
    rfl
  · exact nofun

/-- The state from which a PUSH goes on after its frame `[0, e)` is decoded: DERR raised for a recoverable result, the frame
evicted and counted (42_driver_commands.md R149, R150). -/
def afterFrame (e : Nat) (r : DecoderResult) (s : State) : State :=
  countFrame (withWindow ((window s).drop e) (if r = .recoverable then raiseEvent .derr (BitVec.ofNat 32 e) s else s))

/-- Whatever the result raises, `afterFrame` writes `events` and `eventPort` by it, and the buffer, `occ` and `frames`. -/
theorem afterFrame_eq (e : Nat) (r : DecoderResult) (s : State) : afterFrame e r s = { s with
    buf := Memory.ofBytes 0 ((window s).drop e), occ := ((window s).drop e).length, frames := satInc32 s.frames
    events := if r = .recoverable then s.events ||| 0x04 else s.events
    eventPort := if r = .recoverable then s.eventPort ++ [⟨.derr, BitVec.ofNat 32 e⟩] else s.eventPort } := by
  by_cases hr : r = .recoverable
  · simp only [afterFrame, if_pos hr]; rfl
  · simp only [afterFrame, if_neg hr]; rfl

/-- A stretch that emits no record leaves EVENTS. -/
theorem Stretch.events_of_no_records {k n : Nat} {s t : State} (h : Stretch k n [] s t) : t.events = s.events :=
  BitVec.eq_of_getLsbD_eq fun i _ => by simpa using h.bits i

/-- One OK or recoverable answer in a state of the invariant: a stretch from `afterFrame` that takes no byte and finds no garbage
(42_driver_commands.md R149, R150). -/
theorem step_frame_decoded {s : State} (h : Inv s) (hbusy : s.seq = .busy) {e : Nat} (hreq : s.decReq = some e) {c : PushLoop}
    (hpush : s.push = some c) {code : BitVec 2} (hcode : code.toNat < 2) {rest : List Input}
    (hi : s.inputs = .decoderResponse code :: rest) :
    ∃ t, step s = .next t ∧
      Stretch c.k 0 [] (afterFrame e (decoderResult code) (requestAnswered { s with inputs := rest })) t ∧
      t.buf = Memory.ofBytes 0 ((window s).drop e) ∧ t.occ = s.occ - e := by
  obtain ⟨-, -, hpending⟩ := h.pending_of_decReq hreq
  rw [step_answers_push h.legal hbusy hreq hpush hi]
  exact frameDecoded_continues (h.withInputs rest) hpending hbusy c ((decoderResult_ne_fatal code).mpr hcode)

/-- Settles O27: the fields of the stretch from `afterFrame`, and its ending. -/
theorem frameAnswerEvictsAndCounts : Obligations.FrameAnswerEvictsAndCounts := by
  unfold Obligations.FrameAnswerEvictsAndCounts
  intro s e c code rest h hbusy hreq hpush hi hcode
  obtain ⟨t, hstep, hst, hbuf, hocc⟩ := step_frame_decoded h hbusy hreq hpush hcode hi
  have hevents := hst.events_of_no_records
  rw [afterFrame_eq] at hst hevents
  obtain ⟨-, hrec, -⟩ := decoderResult_iff code
  refine ⟨t, hstep, hocc, fun i _ => ?_, hst.frames, fun h0 => ?_, fun h1 => ?_, hst.life.trans (h.busy hbusy).1.symm,
    hst.cfg, hst.cmdPort, hst.inputs, ?_⟩
  · rw [hbuf, Memory.read_ofBytes_zero, List.getElem?_drop, read_exact h.exact]
  · have hr : decoderResult code ≠ .recoverable := fun hr => absurd (h0.symm.trans (hrec.mp hr)) (by decide)
    exact ⟨hevents.trans (if_neg hr), by simpa only [if_neg hr, List.append_nil, requestAnswered_eventPort] using hst.records⟩
  · have hr : decoderResult code = .recoverable := hrec.mpr h1
    exact ⟨hevents.trans (if_pos hr), by simpa only [if_pos hr, List.append_nil, requestAnswered_eventPort] using hst.records⟩
  · rcases hst.ending with ⟨hready, hresp, hreqs⟩ | ⟨hbusy', hresp, -, -, e', hdec, hreqs⟩
    · exact .inl ⟨hready, (hst.inv.ready hready).2, hreqs, hresp⟩
    · exact .inr ⟨hbusy', hresp, e', _, hdec, rangeField_natCast e' ▸ hreqs⟩

/-- Settles O28: the marker that ended the frame stood whole at `e`, and everything from `e` on moved to 0. -/
theorem noStaleMarkerAfterFrame : Obligations.NoStaleMarkerAfterFrame := by
  unfold Obligations.NoStaleMarkerAfterFrame
  intro s t code rest h hbusy hi hcode hstep
  obtain ⟨-, hp, e, hreq, -, hfits, -, hat⟩ := h.busy hbusy
  obtain ⟨c, hpush⟩ := Option.isSome_iff_exists.mp hp
  obtain ⟨t', hstep', hst, hbuf, hocc⟩ := step_frame_decoded h hbusy hreq hpush hcode hi
  obtain rfl := Host.Outcome.next.inj (hstep'.symm.trans hstep)
  obtain ⟨-, hmarker, -, -⟩ := (configLegal_iff _).mp h.legal
  have hcfg : t'.cfg = s.cfg := by rw [hst.cfg, afterFrame_eq]; rfl
  constructor
  · calc markerAt 0 t' = markerAt 0 (withWindow ((window s).drop e) s) := markerAt_congr (t := withWindow _ s) hcfg hbuf 0
      _ = markerAt e s := markerAt_drop h.exact hmarker e 0
      _ = true := hat
  · rw [hcfg, hocc]; omega

/-! ### The anti-livelock guard -/

/-- Settles O36: the guard computed for each of its two questions. -/
theorem noProgressGuard : Obligations.NoProgressGuard := by
  unfold Obligations.NoProgressGuard
  refine fun s k nop => ⟨fun h => ⟨[], ?_⟩, fun h => ?_, progressGuard_true k nop s⟩
  · simp only [progressGuard, Bool.false_eq_true, if_false, if_pos h]; rfl
  · simp only [progressGuard, Bool.false_eq_true, if_false, if_neg h]

/-- The NOPROG records among some (42_driver_commands.md R154). -/
def noprogs (records : List EventRecord) : List EventRecord := records.filter fun r => r.event == .noprog

/-- Further records of other events leave the NOPROG records. -/
theorem noprogs_append {records more : List EventRecord} (h : ∀ g ∈ more, g.event ≠ .noprog) :
    noprogs (records ++ more) = noprogs records := by
  have hnone : noprogs more = [] := List.filter_eq_nil_iff.mpr fun g hg => by simpa using h g hg
  rw [noprogs, List.filter_append]
  exact (congrArg (noprogs records ++ ·) hnone).trans (List.append_nil _)

theorem noprogs_append_singleton (records : List EventRecord) {e : Event} (x : Word) (h : e ≠ .noprog) :
    noprogs (records ++ [⟨e, x⟩]) = noprogs records :=
  noprogs_append fun g hg => by rw [List.mem_singleton.mp hg]; exact h

/-- The cycle's own records are garbage resets: the guard is asked only after progress (42_driver_commands.md R153, R154). -/
theorem CycleKeeps.noprogs_eq {s t : State} (h : CycleKeeps s t) : noprogs t.eventPort = noprogs s.eventPort := by
  obtain ⟨gs, hport, hgarbage⟩ := h.records
  rw [hport]
  refine noprogs_append fun g hg => ?_
  rcases hgarbage g hg with he | he <;> simp [he]

/-- The decoder's answer raises DERR or DFATAL at most, and the cycle then no NOPROG. -/
theorem frameDecoded_noprogs {c : PushLoop} {e : Nat} {r : DecoderResult} {s t : State} (h : frameDecoded c e r s = .next t) :
    noprogs t.eventPort = noprogs s.eventPort := by
  by_cases hr : r = .fatal
  · subst hr
    obtain rfl := Host.Outcome.next.inj h
    exact noprogs_append_singleton _ _ nofun
  · rw [(frameDecoded_keeps hr h).noprogs_eq]
    split
    · exact noprogs_append_singleton _ _ nofun
    · rfl

/-- Settles O37: by what the step ran; only a hardware reset takes records away. -/
theorem noProgressNeverReported : Obligations.NoProgressNeverReported := by
  unfold Obligations.NoProgressNeverReported
  intro s t ht
  rcases step_effect_cases ht with ⟨c, rest, -, -, hcommand⟩ | ⟨_, rest, -, -, -, rfl⟩ |
    ⟨_, rest, _, _, -, -, -, -, hanswer⟩ | hact
  · refine .inl ?_
    rcases hcommand with ⟨-, rfl | rfl⟩ | ⟨-, rfl | rfl⟩ | ⟨n, -, hcycle⟩ | ⟨_, -, rfl⟩ | ⟨_, rfl⟩ | ⟨w, rfl⟩
    · rfl
    · exact noprogs_append_singleton s.eventPort 0 (e := .initerr) nofun
    · rfl
    · rfl
    · exact hcycle.noprogs_eq
    · rfl
    · rfl
    · exact noprogs_append_singleton s.eventPort w (e := .cmderr) nofun
  · exact .inr rfl
  · exact .inl (frameDecoded_noprogs (s := requestAnswered { s with inputs := rest }) hanswer)
  · exact .inl (by rw [hact])

end Sys2Proof.Machine
end

section
/-! PROOFS. PUSH up to its response or its first dispatch: the outcomes of the first pass, each by the two marker searches
(42_driver_commands.md R144 to R147, R152, R153, R156). -/

namespace Sys2Proof.Machine

/-! ### The inner loop by the two searches -/

/-- Eviction of the front of an exact buffer writes the buffer and `occ` (40_buffer_manager.md R102). -/
theorem trimmed_eq {s : State} (h : BufferExact s) (st : Nat) :
    trimmed st s = { s with buf := Memory.ofBytes 0 ((window s).drop st), occ := s.occ - st } := by
  rw [trimmed, withWindow, List.length_drop, ← occ_eq_length h]

theorem trimmed_zero {s : State} (h : BufferExact s) : trimmed 0 s = s := withWindow_window h

theorem occ_trimmed {s : State} (h : BufferExact s) (st : Nat) : (trimmed st s).occ = s.occ - st := by rw [trimmed_eq h]

/-- Without a marker the pass ends (42_driver_commands.md R145, 41_synchronizer.md R123). -/
theorem innerLoop_nosync {s : State} (hfirst : findMarker 0 s = none) (k nop : Nat) (prog : Bool) :
    innerLoop k nop prog s = endOfPass .nosync k nop s :=
  innerLoop_of_invalid (computeRange_nosync hfirst) rfl k nop prog

/-- With one marker the bytes before it are evicted and the pass ends (42_driver_commands.md R145, 41_synchronizer.md R125). -/
theorem innerLoop_incomplete {s : State} (h : BufferExact s) {st : Nat} (hfirst : findMarker 0 s = some st)
    (hsecond : findMarker (st + s.cfg.markerLength) s = none) (k nop : Nat) (prog : Bool) :
    innerLoop k nop prog s = endOfPass .incomplete k nop (trimmed st s) := by
  have hrange := computeRange_found h hfirst
  rw [hsecond] at hrange
  exact innerLoop_of_invalid hrange rfl k nop prog

/-- With two markers the bytes before them are evicted and the frame between is dispatched (42_driver_commands.md R147, R148). -/
theorem innerLoop_frame {s : State} (h : BufferExact s) (hlegal : configLegal s.cfg = true) (hb : s.occ ≤ s.cfg.capacity)
    {st en : Nat} (hfirst : findMarker 0 s = some st) (hsecond : findMarker (st + s.cfg.markerLength) s = some en)
    (k nop : Nat) (prog : Bool) :
    innerLoop k nop prog s = .done (.next (waiting (en - st) k nop (prog || decide (0 < st)) (trimmed st s))) := by
  obtain ⟨hL, -, -, -⟩ := (configLegal_iff _).mp hlegal
  obtain ⟨hlow, hfits, -, -⟩ := (findMarker_eq_some_iff _ _ _).mp hsecond
  have hrange := computeRange_found h hfirst
  rw [hsecond] at hrange
  have hvalid : validate s.cfg.capacity ⟨0, (en : Int) - (st : Int)⟩ = true := by
    rw [validate_iff]; dsimp only; omega
  have hocc := occ_trimmed h st
  have hlast : ((en : Int) - (st : Int)).toNat = en - st := Int.toNat_sub en st
  have hdispatch := dispatch_exact (s := trimmed st s) (e := en - st) (bufferExact_withWindow _ _) (by omega)
  exact innerLoop_of_valid hrange hvalid (by rw [hlast]; exact hdispatch) k nop prog

/-! ### The first pass of a PUSH -/

/-- The cycle from its inner loop on, with the outer passes left (42_driver_commands.md R145). -/
def cycle (fuel k nop : Nat) (prog : Bool) (s : State) : Host.Outcome State Fault Refusal :=
  match innerLoop k nop prog s with
  | .done o => o
  | .again k' nop' s' => outerLoop fuel k' nop' s'

theorem cycle_of_done {fuel k nop : Nat} {prog : Bool} {s : State} {o : Host.Outcome State Fault Refusal}
    (h : innerLoop k nop prog s = .done o) : cycle fuel k nop prog s = o := by
  rw [cycle, h]

theorem cycle_of_again {fuel k nop k' nop' : Nat} {prog : Bool} {s s' : State} (h : innerLoop k nop prog s = .again k' nop' s') :
    cycle fuel k nop prog s = outerLoop fuel k' nop' s' := by
  rw [cycle, h]

/-- How many bytes the first APPEND of `PUSH N` takes (40_buffer_manager.md R100). -/
def firstTaken (N : BitVec 16) (s : State) : Nat := min N.toNat (s.cfg.capacity - s.occ)

/-- The state after the first APPEND of `PUSH N` (42_driver_commands.md R146). -/
def afterAppend (N : BitVec 16) (s : State) : State :=
  { s with
    buf := Memory.ofBytes 0 (window s ++ (pushPayload N.toNat s).take (firstTaken N s))
    occ := s.occ + firstTaken N s
    din := (pushPayload N.toNat s).drop (firstTaken N s)
    draws := s.draws + (N.toNat - s.din.length) }

/-- A PUSH on an exact buffer in Active. -/
structure Pushable (s : State) : Prop where
  legal : configLegal s.cfg = true
  exact : BufferExact s
  bound : s.occ ≤ s.cfg.capacity
  active : s.life = .active

section
variable {s : State} (h : Pushable s) (N : BitVec 16)
include h

theorem Pushable.exec_push :
    exec (.push N) s = cycle (N.toNat + 1) (firstTaken N s) 0 (decide (0 < firstTaken N s)) (afterAppend N s) :=
  (execPush_firstPass h.exact h.bound h.active).1

theorem Pushable.exact_afterAppend : BufferExact (afterAppend N s) :=
  (execPush_firstPass (N := N) h.exact h.bound h.active).2.2.1

theorem Pushable.bound_afterAppend : (afterAppend N s).occ ≤ s.cfg.capacity := by
  have hbound := h.bound
  have hocc : (afterAppend N s).occ = s.occ + min N.toNat (s.cfg.capacity - s.occ) := rfl
  omega

theorem Pushable.window_afterAppend :
    window (afterAppend N s) = window s ++ (pushPayload N.toNat s).take (firstTaken N s) :=
  (execPush_firstPass (N := N) h.exact h.bound h.active).2.2.2

/-- No marker, and room: the PUSH responds (42_driver_commands.md R152). -/
theorem Pushable.exec_push_nosync (hfirst : findMarker 0 (afterAppend N s) = none)
    (hroom : (afterAppend N s).occ < s.cfg.capacity) :
    exec (.push N) s = .next (respond .ok (BitVec.ofNat 32 (firstTaken N s)) (afterAppend N s)) := by
  rw [h.exec_push N]
  exact cycle_of_done ((innerLoop_nosync hfirst _ _ _).trans (endOfPass_room (Nat.ne_of_lt hroom) _ _ _))

/-- One marker, and room once the bytes before it are evicted: the PUSH responds (42_driver_commands.md R152). -/
theorem Pushable.exec_push_incomplete {st : Nat} (hfirst : findMarker 0 (afterAppend N s) = some st)
    (hsecond : findMarker (st + s.cfg.markerLength) (afterAppend N s) = none)
    (hroom : (afterAppend N s).occ - st < s.cfg.capacity) :
    exec (.push N) s = .next (respond .ok (BitVec.ofNat 32 (firstTaken N s)) (trimmed st (afterAppend N s))) := by
  have hexact := h.exact_afterAppend N
  rw [h.exec_push N]
  exact cycle_of_done ((innerLoop_incomplete hexact hfirst hsecond _ _ _).trans
    (endOfPass_room (Nat.ne_of_lt ((occ_trimmed hexact st).trans_lt hroom)) _ _ _))

/-- Two markers: the PUSH dispatches the frame between them (42_driver_commands.md R147). -/
theorem Pushable.exec_push_frame {st en : Nat} (hfirst : findMarker 0 (afterAppend N s) = some st)
    (hsecond : findMarker (st + s.cfg.markerLength) (afterAppend N s) = some en) :
    exec (.push N) s = .next (waiting (en - st) (firstTaken N s) 0 (decide (0 < firstTaken N s) || decide (0 < st))
      (trimmed st (afterAppend N s))) := by
  rw [h.exec_push N]
  exact cycle_of_done (innerLoop_frame (h.exact_afterAppend N) h.legal (h.bound_afterAppend N) hfirst hsecond _ _ _)

/-- A full buffer without a frame is reset, and the next outer pass begins (42_driver_commands.md R153). -/
theorem Pushable.exec_push_full (hfull : (afterAppend N s).occ = s.cfg.capacity) {cls : Classification}
    (hcls : (cls = .nosync ∧ findMarker 0 (afterAppend N s) = none) ∨
      (cls = .incomplete ∧ findMarker 0 (afterAppend N s) = some 0 ∧
        findMarker s.cfg.markerLength (afterAppend N s) = none)) :
    exec (.push N) s = outerLoop (N.toNat + 1) (firstTaken N s) 0 (garbageReset cls (afterAppend N s)) := by
  have hexact := h.exact_afterAppend N
  rw [h.exec_push N]
  refine cycle_of_again (Eq.trans ?_ (endOfPass_full (s := afterAppend N s) hfull cls _ 0))
  rcases hcls with ⟨rfl, hfirst⟩ | ⟨rfl, hfirst, hsecond⟩
  · exact innerLoop_nosync hfirst _ _ _
  · rw [innerLoop_incomplete hexact hfirst (by rw [Nat.zero_add]; exact hsecond), trimmed_zero hexact]

end

/-- With nothing to take and nothing buffered an outer pass responds (42_driver_commands.md R152). -/
theorem outerLoop_of_empty {s : State} (hlegal : configLegal s.cfg = true) (hbuf : s.buf = []) (hocc : s.occ = 0)
    (hdin : s.din = []) (fuel k nop : Nat) :
    outerLoop (fuel + 1) k nop s = .next (respond .ok (BitVec.ofNat 32 k) s) := by
  obtain ⟨hL, -, hCL, -⟩ := (configLegal_iff _).mp hlegal
  have hexact : BufferExact s := by simp [BufferExact, window, hbuf, hocc, Memory.ofBytes]
  have hstate : { withWindow (window s) s with din := [] } = s := by rw [withWindow_window hexact, ← hdin]
  have hnone : findMarker 0 s = none := (findMarker_eq_none_iff _ _).mpr fun o _ ho => by omega
  have hpass : outerPass k nop s = .done (.next (respond .ok (BitVec.ofNat 32 k) s)) := by
    rw [outerPass_eq hexact (by omega)]
    simp only [hdin, List.length_nil, Nat.zero_min, List.take_nil, List.append_nil, List.drop_nil, Nat.add_zero, hstate]
    rw [innerLoop_nosync hnone, endOfPass_room (by omega)]
  rw [outerLoop, hpass]

/-! ### The statements -/

/-- Settles O31: the two outcomes without a frame and with room, from the searches on the appended buffer. -/
theorem pushRespondsWhileIncomplete : Obligations.PushRespondsWhileIncomplete := by
  unfold Obligations.PushRespondsWhileIncomplete
  intro s N hlegal hexact hbound hactive d n w s1
  have h : Pushable s := ⟨hlegal, hexact, hbound, hactive⟩
  have hsearch : ∀ o, findMarker o (afterAppend N s) = findMarker o s1 := findMarker_congr rfl rfl rfl
  refine ⟨fun hfirst hroom => h.exec_push_nosync N ((hsearch 0).trans hfirst) hroom, fun st hfirst hsecond hroom => ?_⟩
  rw [h.exec_push_incomplete N ((hsearch 0).trans hfirst) ((hsearch _).trans hsecond) hroom,
    trimmed_eq (h.exact_afterAppend N), h.window_afterAppend N]
  rfl

/-- Settles O32: the outcome with a frame, from the searches on the appended buffer. -/
theorem pushDispatchesWholeFrame : Obligations.PushDispatchesWholeFrame := by
  unfold Obligations.PushDispatchesWholeFrame
  intro s N st en hlegal hexact hbound hactive d n w s1 hfirst hsecond
  have h : Pushable s := ⟨hlegal, hexact, hbound, hactive⟩
  have hfront : window (trimmed st (afterAppend N s)) = w.drop st := by
    rw [trimmed, window_withWindow, h.window_afterAppend N]; rfl
  rw [h.exec_push_frame N hfirst hsecond, waiting, hfront, trimmed_eq (h.exact_afterAppend N), h.window_afterAppend N,
    rangeField_natCast, Bool.decide_or]
  rfl

/-- Settles O33: the reset of a full buffer, and the pass after it where no payload is left. -/
theorem fullBufferIsResetOnce : Obligations.FullBufferIsResetOnce := by
  unfold Obligations.FullBufferIsResetOnce
  intro s N hlegal hexact hbound hactive hfills d n w s1 g bit hcase
  have h : Pushable s := ⟨hlegal, hexact, hbound, hactive⟩
  have htaken : firstTaken N s = n := Nat.min_eq_right (by omega)
  have hs1 : afterAppend N s = s1 := by simp only [afterAppend, htaken]; rfl
  have hfull : s1.occ = s.cfg.capacity := Nat.add_sub_cancel' hbound
  obtain ⟨cls, hreset, hcls⟩ : ∃ cls, garbageReset cls s1 = { s1 with
        buf := [], occ := 0, events := s.events ||| bit, eventPort := s.eventPort ++ [⟨g, BitVec.ofNat 32 s.cfg.capacity⟩] } ∧
      ((cls = .nosync ∧ findMarker 0 s1 = none) ∨
       (cls = .incomplete ∧ findMarker 0 s1 = some 0 ∧ findMarker s.cfg.markerLength s1 = none)) := by
    rcases hcase with ⟨hg, hfirst⟩ | ⟨hg, hfirst, hsecond⟩
    · obtain ⟨rfl, rfl⟩ := Prod.mk.inj hg
      exact ⟨.nosync, rfl, .inl ⟨rfl, hfirst⟩⟩
    · obtain ⟨rfl, rfl⟩ := Prod.mk.inj hg
      exact ⟨.incomplete, rfl, .inr ⟨rfl, hfirst, hsecond⟩⟩
  have hrun : exec (.push N) s = outerLoop (N.toNat + 1) n 0 (garbageReset cls s1) := by
    have := h.exec_push_full N (cls := cls) (by rw [hs1]; exact hfull) (by rw [hs1]; exact hcls)
    rwa [htaken, hs1] at this
  refine ⟨[], hreset ▸ hrun, fun hN => ?_⟩
  have hdin : (garbageReset cls s1).din = [] :=
    List.drop_of_length_le ((length_pushPayload N.toNat s).trans hN).le
  rw [hrun, outerLoop_of_empty (s := garbageReset cls s1) hlegal rfl rfl hdin, hreset]
  rfl

/-- Appending nothing to an exact buffer leaves it. -/
theorem afterAppend_zero {s : State} (h : BufferExact s) : afterAppend 0 s = { s with din := [] } := by
  have htaken : firstTaken 0 s = 0 := Nat.zero_min _
  have hpayload : pushPayload (0 : BitVec 16).toNat s = [] := List.length_eq_zero_iff.mp (length_pushPayload _ _)
  rw [afterAppend, htaken, hpayload, List.take_nil, List.append_nil, ← h.1]
  simp

/-- Settles O34: a block between commands holds no frame and has room, so the pass finds nothing to do. -/
theorem emptyPushChangesNothing : Obligations.EmptyPushChangesNothing := by
  unfold Obligations.EmptyPushChangesNothing
  intro s c rest hinv hready hactive hport hword
  have h : Pushable (accept c rest s) := ⟨hinv.legal, hinv.exact, hinv.bound, hactive⟩
  obtain ⟨hpush, -⟩ := hinv.ready hready
  obtain ⟨hroom, hquiet⟩ := hinv.rest hready hactive
  have happend := afterAppend_zero h.exact
  have hsearch : ∀ o, findMarker o (afterAppend 0 (accept c rest s)) = findMarker o s :=
    fun o => by rw [happend]; exact findMarker_congr rfl rfl rfl o
  have hroom' : (afterAppend 0 (accept c rest s)).occ < s.cfg.capacity := by rw [happend]; exact hroom
  have hrun : exec (.push 0) (accept c rest s) = .next (respond .ok 0 (afterAppend 0 (accept c rest s))) := by
    rcases hquiet with hnone | ⟨hfirst, hsecond⟩
    · exact h.exec_push_nosync 0 ((hsearch 0).trans hnone) hroom'
    · have := h.exec_push_incomplete 0 ((hsearch 0).trans hfirst)
        (by rw [Nat.zero_add]; exact (hsearch _).trans hsecond) (by rw [Nat.sub_zero]; exact hroom')
      rwa [trimmed_zero (h.exact_afterAppend 0)] at this
  have hresponse : respond .ok 0 { accept c rest s with din := [] } =
      { s with cmdPort := rest, din := [], responses := s.responses ++ [⟨.ok, 0⟩] } := by
    simp only [respond, hready, hpush]; rfl
  rw [step_accepts hinv.legal hready hport, hword, hrun, happend, hresponse]

/-- Settles O35: the stretch of an accepted PUSH takes a byte, since a READY block in Active has room for one. -/
theorem pushTakesAtLeastOneByte : Obligations.PushTakesAtLeastOneByte := by
  unfold Obligations.PushTakesAtLeastOneByte
  intro s c rest N h hready hactive hport hword hN
  obtain ⟨m, gs, t, hexec, hst, hle, hone⟩ := execPush_stretch h hready hactive c rest N
  refine ⟨t, m, ?_, by omega, hle, ?_⟩
  · rw [step_accepts h.legal hready hport, hword]
    exact hexec
  · rcases hst.ending with ⟨hready', hresp, -⟩ | ⟨hbusy, hresp, ⟨nop, prog, hpush⟩, -, -⟩
    · exact .inl ⟨hready', by rw [hresp, Nat.zero_add]; rfl⟩
    · exact .inr ⟨hbusy, hresp, nop, prog, by rw [hpush, Nat.zero_add]⟩

end Sys2Proof.Machine
end

section
/-! PROOFS. Whole transactions: one response whose status its events name, the three ways a PUSH ends, and the bounds on its work
(42_driver_commands.md R140, R155, R157; 60_exceptions.md R183). -/

namespace Sys2Proof.Machine

/-! ### One command from presentation to response -/

/-- A command presented to a READY block with an empty command port is run, and the decoder then answers what it dispatched. -/
theorem transact_of_next {s t : State} {c : HostCommand} (h : Inv s) (hready : s.seq = .ready) (hport : s.cmdPort = [])
    (hexec : exec (decode c.word) (accept c [] s) = .next t) (codes : List (BitVec 2)) :
    transact c codes s = answerAll codes t := by
  have hstep : step { s with cmdPort := s.cmdPort ++ [c] } = .next t :=
    (step_accepts (s := { s with cmdPort := s.cmdPort ++ [c] }) h.legal hready (congrArg (· ++ [c]) hport)).trans hexec
  rw [transact, hstep]

/-- The status is the one the emitted records name (60_exceptions.md R183). -/
def NamedBy (gs : List EventRecord) (status : Status) : Prop :=
  (status = .cmdErr ↔ ∃ g ∈ gs, g.event = .cmderr) ∧ (status = .initErr ↔ ∃ g ∈ gs, g.event = .initerr) ∧
    (status = .fatal ↔ ∃ g ∈ gs, g.event = .dfatal)

theorem namedBy_cmdErr (w : Word) : NamedBy [⟨.cmderr, w⟩] .cmdErr := by simp [NamedBy]

theorem namedBy_initErr (w : Word) : NamedBy [⟨.initerr, w⟩] .initErr := by simp [NamedBy]

/-- An event that stops no command: a garbage reset, or a recoverable decoder result (60_exceptions.md R183). -/
def Benign (e : Event) : Prop := e = .garb ∨ e = .oversize ∨ e = .derr

theorem namedBy_ok {gs : List EventRecord} (h : ∀ g ∈ gs, Benign g.event) : NamedBy gs .ok := by
  refine ⟨⟨nofun, ?_⟩, ⟨nofun, ?_⟩, ⟨nofun, ?_⟩⟩ <;>
  · rintro ⟨g, hg, he⟩
    exact absurd (h g hg) (by simp [Benign, he])

theorem namedBy_fatal {gs : List EventRecord} (hfatal : ∃ g ∈ gs, g.event = .dfatal)
    (h : ∀ g ∈ gs, Benign g.event ∨ g.event = .dfatal) : NamedBy gs .fatal := by
  refine ⟨⟨nofun, ?_⟩, ⟨nofun, ?_⟩, iff_of_true rfl hfatal⟩ <;>
  · rintro ⟨g, hg, he⟩
    exact absurd (h g hg) (by simp [Benign, he])

/-- A command has run to its response `r` and emitted the records `gs`, which name its status. -/
structure Responded (s t : State) (r : Response) (gs : List EventRecord) : Prop where
  ready : t.seq = .ready
  responses : t.responses = s.responses ++ [r]
  records : t.eventPort = s.eventPort ++ gs
  named : NamedBy gs r.status

/-- Every accepted command other than a PUSH responds at once, without a request. -/
theorem exec_accepted_responds {s t : State} {c : HostCommand} (hword : ∀ n, decode c.word ≠ .push n)
    (hexec : exec (decode c.word) (accept c [] s) = .next t) :
    t.decReq = s.decReq ∧ ∃ r gs, Responded s t r gs := by
  have hok : NamedBy [] .ok := namedBy_ok nofun
  rcases decode_cases c.word with hw | hw | ⟨n, hw⟩ | ⟨mask, hw⟩ | ⟨idx, hw⟩ | hw <;> rw [hw] at hexec
  · obtain rfl := Host.Outcome.next.inj hexec
    split
    · exact ⟨rfl, _, _, rfl, rfl, rfl, namedBy_cmdErr _⟩
    · split
      · exact ⟨rfl, _, [], rfl, rfl, (List.append_nil _).symm, hok⟩
      · exact ⟨rfl, _, _, rfl, rfl, rfl, namedBy_initErr _⟩
  · obtain rfl := Host.Outcome.next.inj hexec
    split
    · exact ⟨rfl, _, [], rfl, rfl, (List.append_nil _).symm, hok⟩
    · exact ⟨rfl, _, [], rfl, rfl, (List.append_nil _).symm, hok⟩
  · exact absurd hw (hword n)
  · obtain rfl := Host.Outcome.next.inj hexec
    exact ⟨rfl, _, [], rfl, rfl, (List.append_nil _).symm, hok⟩
  · simp only [exec, execRdreg] at hexec
    split at hexec
    · obtain rfl := Host.Outcome.next.inj hexec
      exact ⟨rfl, _, [], rfl, rfl, (List.append_nil _).symm, hok⟩
    · obtain rfl := Host.Outcome.next.inj hexec
      exact ⟨rfl, _, _, rfl, rfl, rfl, namedBy_cmdErr _⟩
  · obtain rfl := Host.Outcome.next.inj hexec
    exact ⟨rfl, _, _, rfl, rfl, rfl, namedBy_cmdErr _⟩

/-! ### A PUSH in Active -/

/-- An accepted PUSH in Active has run to its response `r` with `k` bytes taken and the records `gs` (42_driver_commands.md
R155). -/
structure PushEnded (s t : State) (k : Nat) (r : Response) (gs : List EventRecord) : Prop where
  inv : Inv t
  ready : t.seq = .ready
  responses : t.responses = s.responses ++ [r]
  records : t.eventPort = s.eventPort ++ gs
  ending : (r = ⟨.ok, BitVec.ofNat 32 k⟩ ∧ t.life = .active ∧ ∀ g ∈ gs, Benign g.event) ∨
    (r = ⟨.fatal, BitVec.ofNat 32 k⟩ ∧ t.life = .stopped ∧ t.occ = 0 ∧ (∃ g ∈ gs, g.event = .dfatal) ∧
      ∀ g ∈ gs, Benign g.event ∨ g.event = .dfatal)

theorem PushEnded.named {s t : State} {k : Nat} {r : Response} {gs : List EventRecord} (h : PushEnded s t k r gs) :
    NamedBy gs r.status := by
  rcases h.ending with ⟨rfl, -, hbenign⟩ | ⟨rfl, -, -, hfatal, hevents⟩
  · exact namedBy_ok hbenign
  · exact namedBy_fatal hfatal hevents

/-- The records of a stretch are garbage resets (42_driver_commands.md R153). -/
theorem Stretch.benign {k n : Nat} {gs : List EventRecord} {s t : State} (h : Stretch k n gs s t) :
    ∀ g ∈ gs, Benign g.event := fun g hg => (h.garbage g hg).1.imp_right .inl

/-- A stretch that responds is a PUSH run to its end. -/
theorem Stretch.pushEnded {n : Nat} {gs : List EventRecord} {s t : State} (h : Stretch 0 n gs s t) (hready : t.seq = .ready) :
    ∃ r, PushEnded s t n r gs := by
  rcases h.ending with ⟨-, hresp, -⟩ | ⟨hbusy, -⟩
  · rw [Nat.zero_add] at hresp
    exact ⟨_, h.inv, hready, hresp, h.records, .inl ⟨rfl, h.life, h.benign⟩⟩
  · exact nomatch hready.symm.trans hbusy

/-- The answers take a stretch that waits to the PUSH's end: what they emit comes after the garbage records. -/
theorem Answered.pushEnded {s u t : State} {c : PushLoop} {gs hs : List EventRecord} {ds : List DecoderRequest} {r : Response}
    (h : Answered u c t ds hs r) (hresp : u.responses = s.responses) (hrec : u.eventPort = s.eventPort ++ gs)
    (hgs : ∀ g ∈ gs, Benign g.event) : PushEnded s t c.k r (gs ++ hs) where
  inv := h.inv
  ready := h.ready
  responses := hresp ▸ h.resp
  records := by rw [h.ev, hrec, List.append_assoc]
  ending := by
    rcases h.ending with ⟨hr, hlife, hderr⟩ | ⟨hr, hlife, hocc, ⟨g, hg, hfatal⟩, hevents⟩
    · refine .inl ⟨hr, hlife, List.forall_mem_append.mpr ⟨hgs, fun g hg => .inr (.inr (hderr g hg))⟩⟩
    · refine .inr ⟨hr, hlife, hocc, ⟨g, List.mem_append_right _ hg, hfatal⟩, List.forall_mem_append.mpr
        ⟨fun g hg => .inl (hgs g hg), fun g hg => (hevents g hg).imp_left fun hd => .inr (.inr hd)⟩⟩

/-- A PUSH in Active run to its end: its first stretch, and the answers if it waits. -/
theorem transact_push_ended {s t : State} {c : HostCommand} {N : BitVec 16} {codes rest : List (BitVec 2)} (h : Inv s)
    (hready : s.seq = .ready) (hactive : s.life = .active) (hport : s.cmdPort = []) (hword : decode c.word = .push N)
    (hrun : transact c codes s = some (t, rest)) : ∃ k r gs, k ≤ N.toNat ∧ PushEnded s t k r gs := by
  obtain ⟨m, gs, u, hexec, hst, hle, -⟩ := execPush_stretch h hready hactive c [] N
  rw [transact_of_next h hready hport (by rw [hword]; exact hexec)] at hrun
  rcases hst.ending with ⟨hready', -⟩ | ⟨hbusy, hresp, ⟨nop, prog, hpush⟩, -⟩
  · rw [answerAll_none (hst.inv.ready hready').2] at hrun
    obtain ⟨rfl, rfl⟩ := Prod.mk.inj (Option.some.inj hrun)
    obtain ⟨r, hended⟩ := hst.pushEnded hready'
    exact ⟨m, r, gs, hle, hended.inv, hended.ready, hended.responses, hended.records, hended.ending⟩
  · obtain ⟨ds, hs, r, hanswered⟩ := (answerAll_answered hst.inv hbusy hpush).1 t rest hrun
    exact ⟨0 + m, r, gs ++ hs, by omega, hanswered.pushEnded hresp hst.records hst.benign⟩

/-- A PUSH outside Active is a CMD_ERR with its word (42_driver_commands.md R144, R160). -/
theorem transact_push_inactive {s : State} {c : HostCommand} {N : BitVec 16} (h : Inv s) (hready : s.seq = .ready)
    (hactive : s.life ≠ .active) (hport : s.cmdPort = []) (hword : decode c.word = .push N) (codes : List (BitVec 2)) :
    transact c codes s = some (commandError c.word (accept c [] s), codes) := by
  obtain ⟨-, hencode⟩ := (decode_eq_iff c.word (.push N)).mp hword
  have hexec : exec (decode c.word) (accept c [] s) = .next (commandError c.word (accept c [] s)) := by
    rw [hword, exec_push_inactive (s := accept c [] s) hactive, Option.some.inj hencode]
  have hdec : (commandError c.word (accept c [] s)).decReq = none := (h.ready hready).2
  rw [transact_of_next h hready hport hexec, answerAll_none hdec]

/-! ### The statements -/

/-- Settles O38: every command but a PUSH responds at once, a PUSH outside Active too, and one in Active at its end. -/
theorem oneResponseWithItsStatus : Obligations.OneResponseWithItsStatus := by
  unfold Obligations.OneResponseWithItsStatus
  intro s t c codes rest h hready hport hrun
  obtain ⟨-, hdec⟩ := h.ready hready
  have hdone : ∃ r gs, Responded s t r gs := by
    obtain ⟨u, hexec⟩ := exec_accepted_answers h hready c []
    by_cases hpush : ∃ n, decode c.word = .push n
    · obtain ⟨n, hword⟩ := hpush
      by_cases hactive : s.life = .active
      · obtain ⟨k, r, gs, -, hended⟩ := transact_push_ended h hready hactive hport hword hrun
        exact ⟨r, gs, hended.ready, hended.responses, hended.records, hended.named⟩
      · rw [transact_push_inactive h hready hactive hport hword] at hrun
        obtain ⟨rfl, -⟩ := Prod.mk.inj (Option.some.inj hrun)
        exact ⟨_, _, rfl, rfl, rfl, namedBy_cmdErr _⟩
    · obtain ⟨hsame, hresponded⟩ := exec_accepted_responds (not_exists.mp hpush) hexec
      rw [transact_of_next h hready hport hexec, answerAll_none (hsame.trans hdec)] at hrun
      obtain ⟨rfl, -⟩ := Prod.mk.inj (Option.some.inj hrun)
      exact hresponded
  obtain ⟨r, gs, hready', hresp, hrec, hcmd, hinit, hfatal⟩ := hdone
  exact ⟨hready', r, gs, hresp, hrec, hcmd, hinit, hfatal⟩

/-- The bytes a PUSH reports are no more than it was given, even modulo `2^32`. -/
theorem toNat_ofNat_le {k n : Nat} (h : k ≤ n) : (BitVec.ofNat 32 k).toNat ≤ n := by
  rw [BitVec.toNat_ofNat]
  exact (Nat.mod_le _ _).trans h

/-- A PUSH refused outside Active leaves a READY block as it was, but for the CMD_ERR (42_driver_commands.md R160). -/
theorem commandError_accept_ready {s : State} (h : Inv s) (hready : s.seq = .ready) (hport : s.cmdPort = []) (c : HostCommand)
    (w : Word) : commandError w (accept c [] s) = { s with
      events := s.events ||| 0x20, eventPort := s.eventPort ++ [⟨.cmderr, w⟩], responses := s.responses ++ [⟨.cmdErr, 0⟩],
      din := [] } := by
  obtain ⟨hpush, -⟩ := h.ready hready
  simp only [commandError, respond, accept, hready, hport, hpush]
  rfl

/-- Settles O39: the two endings of a PUSH in Active, and the CMD_ERR of one outside. -/
theorem pushEndsInOneOfThreeWays : Obligations.PushEndsInOneOfThreeWays := by
  unfold Obligations.PushEndsInOneOfThreeWays
  intro s t c N codes rest h hready hport hword hrun
  by_cases hactive : s.life = .active
  · obtain ⟨k, r, gs, hk, hended⟩ := transact_push_ended h hready hactive hport hword hrun
    refine ⟨r, hended.responses, ?_⟩
    rcases hended.ending with ⟨rfl, hlife, -⟩ | ⟨rfl, hlife, hocc, -⟩
    · exact .inl ⟨rfl, toNat_ofNat_le hk, hactive, hlife, (hended.inv.rest hended.ready hlife).1⟩
    · exact .inr (.inl ⟨rfl, toNat_ofNat_le hk, hactive, hlife, hocc⟩)
  · rw [transact_push_inactive h hready hactive hport hword] at hrun
    obtain ⟨rfl, -⟩ := Prod.mk.inj (Option.some.inj hrun)
    exact ⟨⟨.cmdErr, 0⟩, rfl, .inr (.inr ⟨rfl, hactive, commandError_accept_ready h hready hport c c.word⟩)⟩

/-- The records of garbage resets among some (42_driver_commands.md R153). -/
def garbageRecords (gs : List EventRecord) : List EventRecord := gs.filter fun g => g.event == .garb || g.event == .oversize

/-- No garbage record comes from an answer to a frame, since the buffer then begins with a marker and has room. -/
theorem garbageRecords_append {gs hs : List EventRecord} (h : ∀ g ∈ hs, g.event = .derr ∨ g.event = .dfatal) :
    garbageRecords (gs ++ hs) = garbageRecords gs := by
  have hnone : garbageRecords hs = [] := List.filter_eq_nil_iff.mpr fun g hg => by rcases h g hg with he | he <;> simp [he]
  rw [garbageRecords, List.filter_append]
  exact (congrArg (garbageRecords gs ++ ·) hnone).trans (List.append_nil _)

/-- Settles O40: each garbage reset of the first stretch takes `C` bytes away, and each dispatch at least `L`. -/
theorem pushDoesBoundedWork : Obligations.PushDoesBoundedWork := by
  unfold Obligations.PushDoesBoundedWork
  intro s c N codes h hready hactive hport hword hcodes
  obtain ⟨hL, -, hCL, -⟩ := (configLegal_iff _).mp h.legal
  obtain ⟨m, gs, u, hexec, hst, hle, -⟩ := execPush_stretch h hready hactive c [] N
  have hcfg : u.cfg = s.cfg := hst.cfg
  have hcontent : u.occ + gs.length * s.cfg.capacity ≤ s.occ + N.toNat := Nat.le_trans hst.content (Nat.add_le_add_left hle _)
  have hgarbage : (garbageRecords gs).length ≤ (s.occ + N.toNat) / s.cfg.capacity := by
    refine (List.length_filter_le _ gs).trans ((Nat.le_div_iff_mul_le (by omega)).mpr (by omega))
  have hocc : u.occ ≤ s.occ + N.toNat := by omega
  rw [transact_of_next h hready hport (by rw [hword]; exact hexec)]
  rcases hst.ending with ⟨hready', -, hreq⟩ | ⟨hbusy, -, ⟨nop, prog, hpush⟩, -, e, -, hreq⟩
  · exact ⟨u, codes, [], gs, answerAll_none (hst.inv.ready hready').2 codes, hready', by rw [hreq, List.append_nil]; rfl,
      hst.records, Nat.zero_le _, hgarbage⟩
  · have henough : u.occ / u.cfg.markerLength ≤ codes.length := by
      rw [hcfg]
      exact (Nat.div_le_div_right hocc).trans hcodes
    obtain ⟨t, rest, ds, hs, r, hrun, hanswered, hdispatches, hevents⟩ :=
      (answerAll_answered hst.inv hbusy hpush).2 henough
    refine ⟨t, rest, ⟨rangeField 0, rangeField e, (window u).take e⟩ :: ds, gs ++ hs, hrun, hanswered.ready, ?_, ?_, ?_, ?_⟩
    · rw [hanswered.req, hreq, List.append_assoc]; rfl
    · rw [hanswered.ev, hst.records, List.append_assoc]; rfl
    · rw [hcfg] at hdispatches
      exact (Nat.le_div_iff_mul_le (by omega)).mpr (hdispatches.trans hocc)
    · exact (congrArg List.length (garbageRecords_append hevents)).trans_le hgarbage

end Sys2Proof.Machine
end

section
/-! PROOFS. The stream as it is processed byte by byte: the reference that every chunking of a stream is compared with
(42_driver_commands.md R145, R149 to R153, R161).  `digest` works a buffer off until no whole frame is left in it, and
`takeByte` digests the stream one byte at a time.  The key fact is `digest_fed`: a buffer may be digested before or after one
more byte is appended to it, so long as there is room for that byte. -/

namespace Sys2Proof.Machine

/-! ### What a stream leaves in a state -/

/-- The fields that a stream of frames writes, the ports of single commands and all transients left out. -/
def stream (s : State) : State :=
  { State.resetWith s.cfg with
    life := s.life, buf := s.buf, occ := s.occ, frames := s.frames, events := s.events
    eventPort := s.eventPort, requests := s.requests }

theorem findMarker_stream (origin : Nat) (s : State) : findMarker origin (stream s) = findMarker origin s :=
  findMarker_congr rfl rfl rfl origin

/-- `s` with more stream bytes in its buffer. -/
def fed (v : List Byte) (s : State) : State := withWindow (window s ++ v) s

/-- The frame `[0, e)` is presented to the decoder (42_driver_commands.md R148). -/
def presented (e : Nat) (s : State) : State :=
  { s with requests := s.requests ++ [⟨rangeField 0, rangeField e, (window s).take e⟩] }

/-- The fatal stop on the frame `[0, e)`, without its response (42_driver_commands.md R151). -/
def stopped (e : Nat) (s : State) : State :=
  emptyBuffer { raiseEvent .dfatal (BitVec.ofNat 32 e) s with life := .stopped }

/-- The end of a pass without a frame: a full buffer is reset (42_driver_commands.md R152, R153). -/
def settled (cls : Classification) (s : State) : State := if s.occ = s.cfg.capacity then garbageReset cls s else s

/-- A buffer worked off: each whole frame takes one of the decoder's codes; the state then, and the codes left.  Without a code
the frame stays in front. -/
def digest (codes : List (BitVec 2)) (s : State) : State × List (BitVec 2) :=
  match findMarker 0 s with
  | none => (settled .nosync s, codes)
  | some st =>
    match findMarker (st + s.cfg.markerLength) s with
    | none => (settled .incomplete (trimmed st s), codes)
    | some en =>
      match codes with
      | [] => (trimmed st s, [])
      | code :: rest =>
        if decoderResult code = .fatal then (stopped (en - st) (presented (en - st) (trimmed st s)), rest)
        else digest rest (afterFrame (en - st) (decoderResult code) (presented (en - st) (trimmed st s)))

/-- One more byte of the stream, where the block is still Active. -/
def takeByte (x : State × List (BitVec 2)) (b : Byte) : State × List (BitVec 2) :=
  if x.1.life = .active then digest x.2 (fed [b] x.1) else x

theorem takeByte_of_active {s : State} (h : s.life = .active) (codes : List (BitVec 2)) (b : Byte) :
    takeByte (s, codes) b = digest codes (fed [b] s) := if_pos h

theorem takeByte_of_inactive {x : State × List (BitVec 2)} (h : x.1.life ≠ .active) (b : Byte) : takeByte x b = x := if_neg h

/-! ### `digest` by the two searches -/

section
variable {s : State} {st : Nat}

theorem digest_nosync (hfirst : findMarker 0 s = none) (codes : List (BitVec 2)) :
    digest codes s = (settled .nosync s, codes) := by
  rw [digest, hfirst]

theorem digest_incomplete (hfirst : findMarker 0 s = some st) (hsecond : findMarker (st + s.cfg.markerLength) s = none)
    (codes : List (BitVec 2)) : digest codes s = (settled .incomplete (trimmed st s), codes) := by
  rw [digest, hfirst]
  simp only [hsecond]

theorem digest_frame_nil (hfirst : findMarker 0 s = some st) {en : Nat}
    (hsecond : findMarker (st + s.cfg.markerLength) s = some en) : digest [] s = (trimmed st s, []) := by
  rw [digest, hfirst]
  simp only [hsecond]

theorem digest_frame (hfirst : findMarker 0 s = some st) {en : Nat}
    (hsecond : findMarker (st + s.cfg.markerLength) s = some en) (code : BitVec 2) (rest : List (BitVec 2)) :
    digest (code :: rest) s =
      if decoderResult code = .fatal then (stopped (en - st) (presented (en - st) (trimmed st s)), rest)
      else digest rest (afterFrame (en - st) (decoderResult code) (presented (en - st) (trimmed st s))) := by
  rw [digest, hfirst]
  simp only [hsecond]

end

theorem settled_of_room {s : State} (h : s.occ < s.cfg.capacity) (cls : Classification) : settled cls s = s :=
  if_neg (Nat.ne_of_lt h)

theorem settled_of_full {s : State} (h : s.occ = s.cfg.capacity) (cls : Classification) :
    settled cls s = garbageReset cls s := if_pos h

/-- In Active, with room for a byte. -/
structure Roomy (s : State) : Prop where
  legal : configLegal s.cfg = true
  exact : BufferExact s
  room : s.occ < s.cfg.capacity
  active : s.life = .active

/-- Between commands there is nothing to work off (42_driver_commands.md R144). -/
theorem digest_of_quiescent {s : State} (h : Roomy s) (hquiet : Quiescent s) (codes : List (BitVec 2)) :
    digest codes s = (s, codes) := by
  rcases hquiet with hnone | ⟨hfirst, hsecond⟩
  · rw [digest_nosync hnone, settled_of_room h.room]
  · rw [digest_incomplete hfirst (by rw [Nat.zero_add]; exact hsecond), trimmed_zero h.exact, settled_of_room h.room]

/-- The eviction of the bytes before the first marker is part of working the buffer off, so it may be done beforehand. -/
theorem digest_trimmed {s : State} (hlegal : configLegal s.cfg = true) (hexact : BufferExact s) {st : Nat}
    (hfirst : findMarker 0 s = some st) (codes : List (BitVec 2)) : digest codes (trimmed st s) = digest codes s := by
  obtain ⟨-, hmarker, -, -⟩ := (configLegal_iff _).mp hlegal
  obtain ⟨-, hfits, hat, -⟩ := (findMarker_eq_some_iff _ _ _).mp hfirst
  have hsearch := fun o => findMarker_drop hexact hmarker (k := st) (by omega) o
  have hstart : findMarker st s = some st :=
    (findMarker_eq_some_iff _ _ _).mpr ⟨le_rfl, hfits, hat, fun x hx hlt => absurd hx (Nat.not_le_of_lt hlt)⟩
  have hfirst' : findMarker 0 (trimmed st s) = some 0 := by
    rw [trimmed, hsearch, Nat.add_zero, hstart, Option.map_some, Nat.sub_self]
  have hsecond' : findMarker (0 + (trimmed st s).cfg.markerLength) (trimmed st s) =
      (findMarker (st + s.cfg.markerLength) s).map (· - st) := by
    rw [Nat.zero_add]; exact hsearch _
  have htrim : trimmed 0 (trimmed st s) = trimmed st s := trimmed_zero (bufferExact_withWindow _ _)
  cases hsecond : findMarker (st + s.cfg.markerLength) s with
  | none =>
    rw [hsecond] at hsecond'
    rw [digest_incomplete hfirst' hsecond', digest_incomplete hfirst hsecond, htrim]
  | some en =>
    rw [hsecond] at hsecond'
    cases codes with
    | nil => rw [digest_frame_nil hfirst' hsecond', digest_frame_nil hfirst hsecond, htrim]
    | cons code rest => rw [digest_frame hfirst' hsecond', digest_frame hfirst hsecond, htrim, Nat.sub_zero]

/-! ### The buffer after each part of the work -/

theorem window_trimmed (st : Nat) (s : State) : window (trimmed st s) = (window s).drop st := window_withWindow _ _

theorem window_afterFrame (e : Nat) (r : DecoderResult) (s : State) : window (afterFrame e r s) = (window s).drop e := by
  rw [afterFrame_eq]; exact Memory.map_snd_ofBytes 0 _

theorem Roomy.trimmed {s : State} (h : Roomy s) (st : Nat) : Roomy (trimmed st s) :=
  ⟨h.legal, bufferExact_withWindow _ _, (occ_trimmed h.exact st).trans_lt ((Nat.sub_le _ _).trans_lt h.room), h.active⟩

theorem Roomy.presented {s : State} (h : Roomy s) (e : Nat) : Roomy (presented e s) := ⟨h.legal, h.exact, h.room, h.active⟩

theorem Roomy.afterFrame {s : State} (h : Roomy s) (e : Nat) (r : DecoderResult) : Roomy (afterFrame e r s) := by
  have hroom : ((window s).drop e).length < s.cfg.capacity := by
    rw [List.length_drop, ← occ_eq_length h.exact]
    exact (Nat.sub_le _ _).trans_lt h.room
  rw [afterFrame_eq]
  exact ⟨h.legal, bufferExact_withWindow ((window s).drop e) s, hroom, h.active⟩

/-! ### Appended bytes -/

@[simp] theorem window_fed (v : List Byte) (s : State) : window (fed v s) = window s ++ v := window_withWindow _ _

theorem bufferExact_fed (v : List Byte) (s : State) : BufferExact (fed v s) := bufferExact_withWindow _ _

theorem occ_fed {s : State} (h : BufferExact s) (v : List Byte) : (fed v s).occ = s.occ + v.length := by
  rw [occ_eq_length (bufferExact_fed v s), window_fed, List.length_append, occ_eq_length h]

theorem fed_nil {s : State} (h : BufferExact s) : fed [] s = s := by rw [fed, List.append_nil, withWindow_window h]

theorem fed_append (v w : List Byte) (s : State) : fed (v ++ w) s = fed w (fed v s) := by
  rw [fed, ← List.append_assoc, ← window_fed]; rfl

theorem Roomy.fed {s : State} (h : Roomy s) {v : List Byte} (hfits : s.occ + v.length < s.cfg.capacity) : Roomy (fed v s) :=
  ⟨h.legal, bufferExact_fed v s, (occ_fed h.exact v).trans_lt hfits, h.active⟩

/-- A whole marker found stays the one found when bytes are appended (41_synchronizer.md R120). -/
theorem findMarker_fed {s : State} (h : BufferExact s) (v : List Byte) {origin o : Nat} (hf : findMarker origin s = some o) :
    findMarker origin (fed v s) = some o := by
  obtain ⟨horigin, hfits, hat, hlowest⟩ := (findMarker_eq_some_iff _ _ _).mp hf
  have hsame : ∀ x, x ≤ o → markerAt x (fed v s) = markerAt x s := fun x hx =>
    (markerAt_congr_below (s := s) (t := fed v s) rfl (fun a ha => by
      rw [read_exact h, read_exact (bufferExact_fed v s), window_fed,
        List.getElem?_append_left (occ_eq_length h ▸ ha)]) (by omega)).symm
  rw [findMarker_eq_some_iff, occ_fed h]
  refine ⟨horigin, ?_, (hsame o le_rfl).trans hat, fun x hx hlt => (hsame x hlt.le).trans (hlowest x hx hlt)⟩
  show o + s.cfg.markerLength ≤ s.occ + v.length
  omega

/-- An eviction of held bytes and an append may be exchanged. -/
theorem trimmed_fed {s : State} (h : BufferExact s) {st : Nat} (hst : st ≤ s.occ) (v : List Byte) :
    trimmed st (fed v s) = fed v (trimmed st s) := by
  rw [trimmed, window_fed, List.drop_append_of_le_length (occ_eq_length h ▸ hst), ← window_trimmed]
  rfl

section
variable {s : State} {e : Nat} (h : BufferExact s) (he : e ≤ s.occ) (v : List Byte)
include h he

/-- A frame of held bytes is presented alike, whatever is appended behind it. -/
theorem presented_fed : presented e (fed v s) = fed v (presented e s) := by
  rw [presented, window_fed, List.take_append_of_le_length (occ_eq_length h ▸ he)]
  rfl

/-- The decoded frame goes from the front, the appended bytes come at the end. -/
theorem afterFrame_fed (r : DecoderResult) : afterFrame e r (fed v s) = fed v (afterFrame e r s) := by
  have hdrop : (window (fed v s)).drop e = window (afterFrame e r s) ++ v := by
    rw [window_fed, List.drop_append_of_le_length (occ_eq_length h ▸ he), window_afterFrame]
  rw [afterFrame_eq, hdrop, fed, afterFrame_eq]
  rfl

end

/-- The fatal stop empties the buffer, whatever was appended. -/
theorem stopped_fed (e : Nat) (v : List Byte) (s : State) : stopped e (fed v s) = stopped e s := rfl

theorem stopped_inactive (e : Nat) (s : State) : (stopped e s).life ≠ .active := nofun

/-- A buffer with room may be worked off before the next byte is appended, or after: what was found in it stays found, and a
full buffer is reset only where the byte filled it (42_driver_commands.md R161). -/
theorem digest_fed (codes : List (BitVec 2)) {s : State} (h : Roomy s) (b : Byte) :
    digest codes (fed [b] s) = takeByte (digest codes s) b := by
  cases hfirst : findMarker 0 s with
  | none => rw [digest_nosync hfirst, settled_of_room h.room, takeByte_of_active h.active]
  | some st =>
    have hst : st ≤ s.occ := by have := (findMarker_eq_some_iff _ _ _).mp hfirst; omega
    have hfirst' := findMarker_fed h.exact [b] hfirst
    have hafter : digest codes (fed [b] s) = takeByte (trimmed st s, codes) b := by
      rw [takeByte_of_active (h.trimmed st).active, ← trimmed_fed h.exact hst]
      exact (digest_trimmed (s := fed [b] s) h.legal (bufferExact_fed [b] s) hfirst' codes).symm
    cases hsecond : findMarker (st + s.cfg.markerLength) s with
    | none => rw [digest_incomplete hfirst hsecond, settled_of_room (h.trimmed st).room, hafter]
    | some en =>
      have hsecond' := findMarker_fed h.exact [b] hsecond
      cases codes with
      | nil => rw [digest_frame_nil hfirst hsecond, hafter]
      | cons code rest =>
        have hen : en - st ≤ (trimmed st s).occ := by
          have := (findMarker_eq_some_iff _ _ _).mp hsecond
          rw [occ_trimmed h.exact]; omega
        have hfront : presented (en - st) (trimmed st (fed [b] s)) = fed [b] (presented (en - st) (trimmed st s)) := by
          rw [trimmed_fed h.exact hst, presented_fed (h.trimmed st).exact hen]
        rw [digest_frame hfirst hsecond, digest_frame hfirst' hsecond', hfront]
        by_cases hfatal : decoderResult code = .fatal
        · rw [if_pos hfatal, if_pos hfatal, stopped_fed]
          exact (takeByte_of_inactive (x := (_, rest)) (stopped_inactive _ _) b).symm
        · rw [if_neg hfatal, if_neg hfatal,
            afterFrame_fed (s := presented (en - st) (trimmed st s)) (h.trimmed st).exact hen]
          exact digest_fed rest (((h.trimmed st).presented _).afterFrame _ _) b
termination_by codes.length

/-- A digested buffer fed with as many bytes as fit is digested as if they came one by one. -/
theorem digest_fed_foldl {codes : List (BitVec 2)} {s : State} (h : Roomy s) {v : List Byte}
    (hfits : s.occ + v.length ≤ s.cfg.capacity) : digest codes (fed v s) = v.foldl takeByte (digest codes s) := by
  induction v using List.reverseRecOn with
  | nil => rw [fed_nil h.exact, List.foldl_nil]
  | append_singleton v b ih =>
    rw [List.length_append, List.length_singleton] at hfits
    rw [fed_append, digest_fed codes (h.fed (by omega)), ih (by omega), List.foldl_append, List.foldl_cons, List.foldl_nil]

/-- A stopped block takes no byte (42_driver_commands.md R160). -/
theorem foldl_takeByte_of_inactive {x : State × List (BitVec 2)} (h : x.1.life ≠ .active) (v : List Byte) :
    v.foldl takeByte x = x := by
  induction v with
  | nil => rfl
  | cons b v ih => rw [List.foldl_cons, takeByte_of_inactive h, ih]

end Sys2Proof.Machine
end

section
/-! PROOFS. Chunk-size independence (42_driver_commands.md R161): a PUSH, a FEED and a chunked stream each take the bytes of the
stream one after the other, as `takeByte` does, so two chunkings of one stream end alike. -/

namespace Sys2Proof.Machine

/-! ### The waiting PUSH and its answer -/

/-- The answer finds the state in which the frame was presented (42_driver_commands.md R148). -/
theorem requestAnswered_waiting {s : State} (hpush : s.push = none) (hdec : s.decReq = none) (e k nop : Nat) (prog : Bool) :
    requestAnswered (waiting e k nop prog s) = presented e s := by
  rw [requestAnswered, waiting, presented, hpush, hdec]

theorem Running.trimmed {s : State} (h : Running s) (st : Nat) : Running (trimmed st s) :=
  h.withWindow (by rw [List.length_drop, ← occ_eq_length h.exact]; exact (Nat.sub_le _ _).trans h.bound)

theorem Running.presented {s : State} (h : Running s) (e : Nat) : Running (presented e s) :=
  ⟨h.legal, h.exact, h.bound, h.active, h.reserved, h.busy, h.noPush, h.noRequest⟩

theorem Running.afterFrame {s : State} (h : Running s) (e : Nat) (r : DecoderResult) : Running (afterFrame e r s) := by
  have hbound : ((window s).drop e).length ≤ s.cfg.capacity := by
    rw [List.length_drop, ← occ_eq_length h.exact]
    exact (Nat.sub_le _ _).trans h.bound
  rw [afterFrame_eq]
  refine ⟨h.legal, bufferExact_withWindow ((window s).drop e) s, hbound, h.active, ?_, h.busy, h.noPush, h.noRequest⟩
  dsimp only
  split
  · rw [BitVec.getLsbD_or, h.reserved]; rfl
  · exact h.reserved

/-- After an OK or recoverable answer the PUSH goes on from `afterFrame` (42_driver_commands.md R149, R150). -/
theorem frameDecoded_resumes {s : State} (h : BufferExact s) {e : Nat} (he : e ≤ s.occ) {r : DecoderResult} (hr : r ≠ .fatal)
    (c : PushLoop) : frameDecoded c e r s = resumePush c.k c.nop true (afterFrame e r s) := by
  cases r with
  | fatal => exact absurd rfl hr
  | ok =>
    have hevict := evict_exact h he
    simp only [frameDecoded, reduceCtorEq, if_false, hevict, afterFrame]
  | recoverable =>
    have hevict : evict e (raiseEvent .derr (BitVec.ofNat 32 e) s) = .ok (withWindow ((window s).drop e) _) :=
      evict_exact (s := raiseEvent .derr (BitVec.ofNat 32 e) s) h he
    simp only [frameDecoded, if_true, hevict, afterFrame]

/-- A resumed PUSH is the cycle with its bound on the outer passes, since no inner loop takes payload. -/
theorem resumePush_eq_cycle {s : State} (h : Running s) (k nop : Nat) (prog : Bool) :
    resumePush k nop prog s = cycle (passBound s) k nop prog s := by
  rcases innerLoop_cases h.exact h.legal h.bound k nop prog with
    ⟨st, e, -, -, -, -, -, hin⟩ | ⟨st, -, -, -, hin⟩ | ⟨-, cls, -, hin⟩
  · rw [resumePush, cycle_of_done hin, hin]
  · rw [resumePush, cycle_of_done hin, hin]
  · rw [resumePush, cycle_of_again hin, hin]; rfl

/-! ### The stream of a state after each part of the work -/

theorem Running.roomy_stream {s : State} (h : Running s) (hroom : s.occ < s.cfg.capacity) : Roomy (stream s) :=
  ⟨h.legal, h.exact, hroom, h.active⟩

theorem stream_afterFrame (e : Nat) (r : DecoderResult) (s : State) : stream (afterFrame e r s) = afterFrame e r (stream s) := by
  rw [afterFrame_eq, afterFrame_eq]; rfl

theorem occ_afterFrame {s : State} (h : BufferExact s) (e : Nat) (r : DecoderResult) :
    (afterFrame e r (presented e s)).occ = s.occ - e := by
  rw [afterFrame_eq, occ_eq_length h]; exact List.length_drop

/-- What the inner loop does, and what `digest` does with the same buffer: the end of a pass once the bytes before
the first marker are evicted, or a frame that takes the next code (42_driver_commands.md R145). -/
theorem innerLoop_digest_cases {s : State} (h : Running s) (k nop : Nat) (prog : Bool) :
    (∃ st cls, innerLoop k nop prog s = endOfPass cls k nop (trimmed st s) ∧
      ∀ codes, digest codes (stream s) = (settled cls (stream (trimmed st s)), codes)) ∨
    ∃ st e prog', 1 ≤ e ∧ e ≤ (trimmed st s).occ ∧
      innerLoop k nop prog s = .done (.next (waiting e k nop prog' (trimmed st s))) ∧
      ∀ code rest, digest (code :: rest) (stream s) =
        if decoderResult code = .fatal then (stopped e (stream (presented e (trimmed st s))), rest)
        else digest rest (stream (afterFrame e (decoderResult code) (presented e (trimmed st s)))) := by
  obtain ⟨hL, -, -, -⟩ := (configLegal_iff _).mp h.legal
  cases hfirst : findMarker 0 s with
  | none =>
    refine .inl ⟨0, .nosync, ?_, fun codes => ?_⟩
    · rw [trimmed_zero h.exact]; exact innerLoop_nosync hfirst k nop prog
    · rw [trimmed_zero h.exact]; exact digest_nosync ((findMarker_stream 0 s).trans hfirst) codes
  | some st =>
    have hfirst' := (findMarker_stream 0 s).trans hfirst
    cases hsecond : findMarker (st + s.cfg.markerLength) s with
    | none =>
      exact .inl ⟨st, .incomplete, innerLoop_incomplete h.exact hfirst hsecond k nop prog,
        digest_incomplete hfirst' ((findMarker_stream _ s).trans hsecond)⟩
    | some en =>
      obtain ⟨hlow, hfits, -, -⟩ := (findMarker_eq_some_iff _ _ _).mp hsecond
      refine .inr ⟨st, en - st, _, by omega, ?_, innerLoop_frame h.exact h.legal h.bound hfirst hsecond k nop prog,
        fun code rest => ?_⟩
      · rw [occ_trimmed h.exact]; omega
      · rw [stream_afterFrame]
        exact digest_frame hfirst' ((findMarker_stream _ s).trans hsecond) code rest

/-! ### One PUSH takes its bytes one after the other -/

/-- The answers have taken a running PUSH from `s`, with `k` bytes reported already, to its end in `t`: it took `m` bytes of its
payload, worked them off as single bytes, and used no more of the codes than it evicted bytes. -/
structure Digested (codes : List (BitVec 2)) (k m : Nat) (s t : State) (rest : List (BitVec 2)) : Prop where
  taken : m ≤ s.din.length
  port : t.cmdPort = s.cmdPort
  bytes : (stream t, rest) = (s.din.take m).foldl takeByte (digest codes (stream s))
  budget : t.occ + codes.length ≤ s.occ + m + rest.length
  response : t.life = .active → t.responses.getLast? = some ⟨.ok, BitVec.ofNat 32 (k + m)⟩

/-- A PUSH digested from a later moment is digested from an earlier one too, if the work between the two is the front of what
`digest` does and evicts a byte for each code. -/
theorem Digested.of_digest {codes codes' rest : List (BitVec 2)} {k m : Nat} {s s' t : State}
    (h : Digested codes' k m s' t rest) (hdin : s'.din = s.din) (hport : s'.cmdPort = s.cmdPort)
    (hbytes : digest codes (stream s) = digest codes' (stream s')) (hbudget : s'.occ + codes.length ≤ s.occ + codes'.length) :
    Digested codes k m s t rest where
  taken := hdin ▸ h.taken
  port := h.port.trans hport
  bytes := by rw [h.bytes, hdin, hbytes]
  budget := by have := h.budget; omega
  response := h.response

/-- The outcome of a PUSH runs to an end that has digested its bytes, at least `low` of them. -/
def RunsToDigest (o : Host.Outcome State Fault Refusal) (codes : List (BitVec 2)) (low k : Nat) (s : State) : Prop :=
  ∃ u m t rest, o = .next u ∧ answerAll codes u = some (t, rest) ∧ low ≤ m ∧ Digested codes k m s t rest

theorem RunsToDigest.of_digest {o : Host.Outcome State Fault Refusal} {codes : List (BitVec 2)} {low k : Nat} {s s' : State}
    (h : RunsToDigest o codes low k s') (hdin : s'.din = s.din) (hport : s'.cmdPort = s.cmdPort)
    (hbytes : digest codes (stream s) = digest codes (stream s')) (hocc : s'.occ ≤ s.occ) :
    RunsToDigest o codes 0 k s := by
  obtain ⟨u, m, t, rest, ho, hrun, -, hdigested⟩ := h
  exact ⟨u, m, t, rest, ho, hrun, Nat.zero_le _, hdigested.of_digest hdin hport hbytes (Nat.add_le_add_right hocc _)⟩

/-- How many bytes of the payload an APPEND takes (40_buffer_manager.md R100). -/
def appendCount (s : State) : Nat := min s.din.length (s.cfg.capacity - s.occ)

/-- The state after an APPEND of the payload (42_driver_commands.md R146). -/
def appended (s : State) : State :=
  { fed (s.din.take (s.cfg.capacity - s.occ)) s with din := s.din.drop (appendCount s) }

theorem length_din_appended (s : State) :
    (appended s).din.length = s.din.length - appendCount s := List.length_drop

section
variable {s : State} (h : Running s)
include h

theorem occ_appended : (appended s).occ = s.occ + appendCount s := by
  have hocc := occ_fed h.exact (s.din.take (s.cfg.capacity - s.occ))
  rwa [List.length_take, Nat.min_comm] at hocc

theorem running_appended : Running (appended s) := by
  have hbound : (appended s).occ ≤ s.cfg.capacity := by
    have := h.bound
    rw [occ_appended h, appendCount]; omega
  exact ⟨h.legal, bufferExact_fed _ s, hbound, h.active, h.reserved, h.busy, h.noPush, h.noRequest⟩

/-- An outer pass is an APPEND and the cycle from its inner loop on (42_driver_commands.md R145, R146). -/
theorem outerLoop_succ (fuel k nop : Nat) : outerLoop (fuel + 1) k nop s =
    cycle fuel (k + appendCount s) nop (decide (0 < appendCount s)) (appended s) := by
  rw [outerLoop, outerPass_eq h.exact h.bound]
  rfl

/-- The bytes an outer pass appends come before those that are taken after it. -/
theorem runsToDigest_outerLoop (hroom : s.occ < s.cfg.capacity) {codes : List (BitVec 2)} {fuel k nop low : Nat}
    (hcycle : ∀ prog, RunsToDigest (cycle fuel (k + appendCount s) nop prog (appended s)) codes low (k + appendCount s)
      (appended s)) :
    RunsToDigest (outerLoop (fuel + 1) k nop s) codes (appendCount s) k s := by
  have hcount : appendCount s ≤ s.din.length := Nat.min_le_left ..
  have hocc := occ_appended h
  have hdin := length_din_appended s
  rw [outerLoop_succ h]
  obtain ⟨u, m, t, rest, ho, hrun, -, hdigested⟩ := hcycle (decide (0 < appendCount s))
  have htaken := hdigested.taken
  have hbudget := hdigested.budget
  refine ⟨u, appendCount s + m, t, rest, ho, hrun, Nat.le_add_right _ _, by omega, hdigested.port,
    ?_, by omega, fun hlife => ?_⟩
  · have hfits : (stream s).occ + (s.din.take (s.cfg.capacity - s.occ)).length ≤ s.cfg.capacity := by
      rw [List.length_take]
      show s.occ + _ ≤ _
      omega
    have htake : s.din.take (s.cfg.capacity - s.occ) = s.din.take (appendCount s) := by
      rw [List.take_eq_take_iff, appendCount]; omega
    have hfed : digest codes (stream (appended s)) =
        (s.din.take (s.cfg.capacity - s.occ)).foldl takeByte (digest codes (stream s)) :=
      digest_fed_foldl (h.roomy_stream hroom) hfits
    rw [hdigested.bytes, hfed, htake, ← List.foldl_append, List.take_add]
    rfl
  · rw [← Nat.add_assoc]; exact hdigested.response hlife

/-- The response at step 4 ends the work (42_driver_commands.md R152). -/
theorem runsToDigest_respond {s' : State} {codes : List (BitVec 2)} (hport : s.cmdPort = s'.cmdPort) (hocc : s.occ ≤ s'.occ)
    (hbytes : digest codes (stream s') = (stream s, codes)) (k : Nat) :
    RunsToDigest (.next (respond .ok (BitVec.ofNat 32 k) s)) codes 0 k s' :=
  ⟨_, 0, respond .ok (BitVec.ofNat 32 k) s, codes, rfl, answerAll_none (s := respond .ok _ s) h.noRequest codes, le_rfl,
    Nat.zero_le _, hport, hbytes.symm, Nat.add_le_add_right hocc _,
    fun _ => by rw [respond_responses]; exact List.getLast?_concat⟩

/-- A waiting PUSH takes the next code, and the answers go on from the state it leads to (42_driver_commands.md R149 to R151). -/
theorem answerAll_waiting {e k nop : Nat} {prog : Bool} (code : BitVec 2) (rest : List (BitVec 2)) {t : State}
    (ht : frameDecoded ⟨k, nop, prog⟩ e (decoderResult code) (presented e s) = .next t) :
    answerAll (code :: rest) (waiting e k nop prog s) = answerAll rest t := by
  have hstep : step { waiting e k nop prog s with inputs := .decoderResponse code :: (waiting e k nop prog s).inputs } = .next t :=
    (step_answers_push (s := { waiting e k nop prog s with inputs := .decoderResponse code :: (waiting e k nop prog s).inputs })
      h.legal h.busy rfl rfl rfl).trans ((congrArg _ (requestAnswered_waiting h.noPush h.noRequest e k nop prog)).trans ht)
  rw [answerAll, if_neg nofun, hstep]

/-- A fatal answer ends the work, and no more bytes are taken (42_driver_commands.md R151). -/
theorem runsToDigest_fatal {s' : State} {codes : List (BitVec 2)} {code : BitVec 2} {e : Nat}
    (hfatal : decoderResult code = .fatal) (hport : s.cmdPort = s'.cmdPort) (hocc : 1 ≤ s'.occ)
    (hbytes : digest (code :: codes) (stream s') = (stopped e (stream (presented e s)), codes)) (k nop : Nat) (prog : Bool) :
    RunsToDigest (.next (waiting e k nop prog s)) (code :: codes) 0 k s' := by
  refine ⟨_, 0, fatalStop .dfatal (BitVec.ofNat 32 e) .fatal (BitVec.ofNat 32 k) (presented e s), codes, rfl, ?_, le_rfl,
    Nat.zero_le _, hport, hbytes.symm, ?_, nofun⟩
  · rw [answerAll_waiting h code codes (by rw [hfatal]; rfl)]
    refine answerAll_none ?_ codes
    exact h.noRequest
  · rw [fatalStop_occ, List.length_cons]; omega

end

/-- An empty buffer is quiescent. -/
theorem quiescent_of_empty {s : State} (hlegal : configLegal s.cfg = true) (hocc : s.occ = 0) : Quiescent s := by
  obtain ⟨hL, -, -, -⟩ := (configLegal_iff _).mp hlegal
  exact .inl ((findMarker_eq_none_iff _ _).mpr fun o _ ho => by omega)

/-- A garbage reset is one end of `digest`, and nothing is found in the emptied buffer. -/
theorem digest_stream_garbageReset {s : State} (h : Running s) (hfull : s.occ = s.cfg.capacity) (cls : Classification)
    (codes : List (BitVec 2)) :
    (settled cls (stream s), codes) = digest codes (stream (garbageReset cls s)) := by
  obtain ⟨hL, -, hCL, -⟩ := (configLegal_iff _).mp h.legal
  have hroom : (garbageReset cls s).occ < s.cfg.capacity := by rw [garbageReset_occ]; omega
  have hquiet : Quiescent (stream (garbageReset cls s)) := quiescent_of_empty h.legal rfl
  rw [digest_of_quiescent ((h.garbageReset cls).roomy_stream hroom) hquiet, settled_of_full (s := stream s) hfull]
  rfl

/-- An OK or recoverable answer goes on from `afterFrame` (42_driver_commands.md R149, R150). -/
theorem runsToDigest_continue {s s' : State} {e k nop : Nat} {prog : Bool} {code : BitVec 2} {codes : List (BitVec 2)}
    (h : Running s) (he : 1 ≤ e) (hfits : e ≤ s.occ) (hfatal : decoderResult code ≠ .fatal) (hdin : s.din = s'.din)
    (hport : s.cmdPort = s'.cmdPort) (hocc : s.occ ≤ s'.occ)
    (hbytes : digest (code :: codes) (stream s') =
      digest codes (stream (afterFrame e (decoderResult code) (presented e s))))
    (hrest : ∀ fuel, s.din.length + 1 ≤ fuel → RunsToDigest
      (cycle fuel k nop true (afterFrame e (decoderResult code) (presented e s))) codes 0 k
      (afterFrame e (decoderResult code) (presented e s))) :
    RunsToDigest (.next (waiting e k nop prog s)) (code :: codes) 0 k s' := by
  have hresumes := frameDecoded_resumes (s := presented e s) h.exact hfits hfatal ⟨k, nop, prog⟩
  have hafter : (afterFrame e (decoderResult code) (presented e s)).din = s.din ∧
      (afterFrame e (decoderResult code) (presented e s)).cmdPort = s.cmdPort := by
    rw [afterFrame_eq]; exact ⟨rfl, rfl⟩
  have hoccA := occ_afterFrame h.exact e (decoderResult code)
  rw [resumePush_eq_cycle ((h.presented e).afterFrame e (decoderResult code)), passBound, hafter.1] at hresumes
  obtain ⟨u, m, t, rest, ho, hrun, hlow, hdigested⟩ := hrest (s.din.length + 2) (Nat.le_succ _)
  refine ⟨_, m, t, rest, rfl, (answerAll_waiting h code codes (hresumes.trans ho)).trans hrun, hlow,
    hdigested.of_digest (hafter.1.trans hdin) (hafter.2.trans hport) hbytes ?_⟩
  rw [List.length_cons]; omega

/-- From its inner loop on a PUSH takes the bytes of its payload one after the other, whatever it dispatches and resets between
them; each dispatch and each garbage reset leaves fewer bytes to work off (42_driver_commands.md R157, R161). -/
theorem runsToDigest_cycle {work fuel k nop : Nat} {prog : Bool} {codes : List (BitVec 2)} {s : State} (h : Running s)
    (hwork : s.occ + s.din.length = work) (hcodes : work ≤ codes.length)
    (hfuel : s.occ = s.cfg.capacity → s.din.length + 1 ≤ fuel) : RunsToDigest (cycle fuel k nop prog s) codes 0 k s := by
  induction work using Nat.strong_induction_on generalizing fuel k nop prog codes s with
  | _ work ih =>
  obtain ⟨hL, -, hCL, -⟩ := (configLegal_iff _).mp h.legal
  have hbound := h.bound
  rcases innerLoop_digest_cases h k nop prog with ⟨st, cls, hin, hdigest⟩ | ⟨st, e, prog', he, hfits, hin, hdigest⟩
  all_goals
    have hs := h.trimmed st
    have hocc : (trimmed st s).occ = s.occ - st := occ_trimmed h.exact st
  · by_cases hfull : (trimmed st s).occ = s.cfg.capacity
    · -- A garbage reset, and the next outer pass over what is left of the payload.
      obtain ⟨fuel, rfl⟩ : ∃ n, fuel = n + 1 := ⟨fuel - 1, by have := hfuel (by omega); omega⟩
      have hg := hs.garbageReset cls
      have hcount : appendCount (garbageReset cls (trimmed st s)) = min s.din.length (s.cfg.capacity - 0) := rfl
      have hoccA : (appended (garbageReset cls (trimmed st s))).occ = 0 + _ := occ_appended hg
      have hdinA : (appended (garbageReset cls (trimmed st s))).din.length = s.din.length - _ := length_din_appended _
      rw [cycle_of_again (hin.trans (endOfPass_full hfull cls k nop))]
      refine (runsToDigest_outerLoop hg (show 0 < s.cfg.capacity by omega) fun _ => ih s.din.length (by omega)
        (running_appended hg) (by omega) (by omega) fun hC => ?_).of_digest rfl rfl
        ((hdigest codes).trans (digest_stream_garbageReset hs hfull cls codes)) (Nat.zero_le _)
      have : _ = s.cfg.capacity := hC
      omega
    · -- The response at step 4.
      have hroom : (trimmed st s).occ < s.cfg.capacity := by omega
      have hsettled : digest codes (stream s) = (stream (trimmed st s), codes) :=
        (hdigest codes).trans (congrArg (·, codes) (settled_of_room (s := stream (trimmed st s)) hroom cls))
      rw [cycle_of_done (hin.trans (endOfPass_room hfull cls k nop))]
      exact runsToDigest_respond hs (s' := s) rfl (hocc.trans_le (Nat.sub_le _ _)) hsettled k
  · -- A frame, and the decoder's answer by the next code.
    rw [cycle_of_done hin]
    obtain ⟨code, codes, rfl⟩ : ∃ code rest, codes = code :: rest := List.exists_cons_of_length_pos (by omega)
    rw [List.length_cons] at hcodes
    have hframe := hdigest code codes
    by_cases hfatal : decoderResult code = .fatal
    · rw [if_pos hfatal] at hframe
      exact runsToDigest_fatal hs (s' := s) hfatal rfl (by omega) hframe k nop prog'
    · rw [if_neg hfatal] at hframe
      have hoccA := occ_afterFrame hs.exact e (decoderResult code)
      have hdinA : (afterFrame e (decoderResult code) (presented e (trimmed st s))).din = s.din := by rw [afterFrame_eq]; rfl
      exact runsToDigest_continue hs (s' := s) he hfits hfatal rfl rfl (by omega) hframe fun fuel hfuel' =>
        ih _ (by rw [hdinA]; omega) ((hs.presented e).afterFrame e _) rfl (by rw [hdinA]; omega)
          fun _ => by rw [hdinA]; exact hfuel'

/-! ### FEED and the chunks of a stream -/

/-- A READY block between commands, the command port empty. -/
structure AtRest (s : State) : Prop where
  inv : Inv s
  ready : s.seq = .ready
  port : s.cmdPort = []

/-- A PUSH in Active is the outer loop over its presented payload (42_driver_commands.md R145). -/
theorem exec_push_active {s : State} (h : s.life = .active) (n : BitVec 16) :
    exec (.push n) s = outerLoop (passBound (presentPayload n.toNat s)) 0 0 (presentPayload n.toNat s) := by
  simp only [exec, execPush, if_pos h]

/-- The word of `PUSH |d|` decodes to it (30_encoding.md R83). -/
theorem decode_pushCommand (d : List Byte) : decode (pushCommand d).word = .push (BitVec.ofNat 16 d.length) :=
  (decode_eq_iff _ _).mpr ⟨rfl, rfl⟩

/-- With all `N` bytes listed the payload is what is listed (30_encoding.md R76). -/
theorem pushPayload_listed {s : State} {n : Nat} (h : s.din.length = n) : pushPayload n s = s.din := by
  rw [pushPayload, List.take_of_length_le h.le, h, Nat.sub_self]
  exact List.append_nil _

/-- The bytes `d` were taken one after the other, from `s` to `t`, and an Active block is at rest again. -/
structure Consumed (d : List Byte) (codes : List (BitVec 2)) (s t : State) (rest : List (BitVec 2)) : Prop where
  bytes : (stream t, rest) = d.foldl takeByte (stream s, codes)
  atRest : t.life = .active → AtRest t
  budget : t.life = .active → t.occ + codes.length ≤ s.occ + d.length + rest.length

theorem Consumed.nil {s : State} (h : AtRest s) (codes : List (BitVec 2)) : Consumed [] codes s s codes :=
  ⟨rfl, fun _ => h, fun _ => le_rfl⟩

theorem Consumed.append {d e : List Byte} {codes codes' rest : List (BitVec 2)} {s t u : State}
    (h : Consumed d codes s t codes') (g : Consumed e codes' t u rest) (hactive : t.life = .active) :
    Consumed (d ++ e) codes s u rest where
  bytes := by rw [g.bytes, h.bytes, List.foldl_append]
  atRest := g.atRest
  budget hlife := by
    have := h.budget hactive
    have := g.budget hlife
    rw [List.length_append]; omega

/-- A stopped block takes none of the bytes that are left. -/
theorem Consumed.append_of_inactive {d : List Byte} {codes rest : List (BitVec 2)} {s t : State}
    (h : Consumed d codes s t rest) (hlife : t.life ≠ .active) (e : List Byte) : Consumed (d ++ e) codes s t rest where
  bytes := by
    rw [List.foldl_append, ← h.bytes]
    exact (foldl_takeByte_of_inactive (x := (stream t, rest)) hlife e).symm
  atRest hactive := absurd hactive hlife
  budget hactive := absurd hactive hlife

section
variable {s : State} (h : AtRest s) (hactive : s.life = .active) {d : List Byte} (hsize : d.length ≤ 65535)
include h hactive hsize

/-- A PUSH of listed bytes runs to an end that has digested them (42_driver_commands.md R145). -/
theorem runsToDigest_execPush {codes : List (BitVec 2)} (hcodes : s.occ + d.length ≤ codes.length) :
    ∃ s', s'.din = d ∧ s'.cmdPort = [] ∧ s'.occ = s.occ ∧ stream s' = stream s ∧
      RunsToDigest (exec (decode (pushCommand d).word) (accept (pushCommand d) [] s)) codes
        (min d.length (s.cfg.capacity - s.occ)) 0 s' := by
  have hN : (BitVec.ofNat 16 d.length).toNat = d.length := by rw [BitVec.toNat_ofNat]; omega
  obtain ⟨s', hs'⟩ : ∃ s', s' = presentPayload (BitVec.ofNat 16 d.length).toNat (accept (pushCommand d) [] s) := ⟨_, rfl⟩
  have hrun : Running s' := hs' ▸ running_of_accept h.inv h.ready hactive _ _ _
  have hdin : s'.din = d := by
    subst hs'
    exact pushPayload_listed (s := accept (pushCommand d) [] s) hN.symm
  have hocc : s'.occ = s.occ := by subst hs'; rfl
  have hcfg : s'.cfg = s.cfg := by subst hs'; rfl
  have hexec : exec (decode (pushCommand d).word) (accept (pushCommand d) [] s) = outerLoop (d.length + 1 + 1) 0 0 s' := by
    rw [decode_pushCommand, exec_push_active (s := accept (pushCommand d) [] s) hactive, ← hs', passBound, hdin]
  have hcount : appendCount s' = min d.length (s.cfg.capacity - s.occ) := by rw [appendCount, hdin, hocc, hcfg]
  have hoccA := occ_appended hrun
  have hdinA := length_din_appended s'
  rw [hdin] at hdinA
  have hroom := (h.inv.rest h.ready hactive).1
  have hpass := runsToDigest_outerLoop hrun (by rw [hcfg, hocc]; exact hroom) (k := 0) (nop := 0) (codes := codes) fun _ =>
    runsToDigest_cycle (fuel := d.length + 1) (running_appended hrun) rfl (by omega) fun _ => by omega
  exact ⟨s', hdin, by subst hs'; rfl, hocc, by subst hs'; rfl, hexec ▸ hcount ▸ hpass⟩

/-- One PUSH of a stream in Active: it consumes at least one byte, and reports how many (42_driver_commands.md R156). -/
theorem transact_push_consumes (hd : d ≠ []) {codes : List (BitVec 2)} (hcodes : s.occ + d.length ≤ codes.length) :
    ∃ m t rest r, transact (pushCommand d) codes s = some (t, rest) ∧ 1 ≤ m ∧ m ≤ d.length ∧
      Consumed (d.take m) codes s t rest ∧ t.responses.getLast? = some r ∧
      ((r = ⟨.ok, BitVec.ofNat 32 m⟩ ∧ t.life = .active) ∨ (r.status ≠ .ok ∧ t.life ≠ .active)) := by
  obtain ⟨hroom, hquiet⟩ := h.inv.rest h.ready hactive
  obtain ⟨s', hdin, hport, hocc, hstream, u, m, t, rest, hexec, hanswers, hlow, hdigested⟩ :=
    runsToDigest_execPush h hactive hsize hcodes
  have hrun := (transact_of_next h.inv h.ready h.port hexec codes).trans hanswers
  obtain ⟨k, r, gs, -, hended⟩ := transact_push_ended h.inv h.ready hactive h.port (decode_pushCommand d) hrun
  have hlast : t.responses.getLast? = some r := by rw [hended.responses]; exact List.getLast?_concat
  have htaken := hdigested.taken
  have hbudget := hdigested.budget
  have hpos : 0 < d.length := List.length_pos_iff.mpr hd
  rw [hdin] at htaken
  rw [hocc] at hbudget
  have hsettled : digest codes (stream s) = (stream s, codes) :=
    digest_of_quiescent (s := stream s) ⟨h.inv.legal, h.inv.exact, hroom, hactive⟩ hquiet codes
  refine ⟨m, t, rest, r, hrun, by omega, htaken, ⟨?_, fun _ => ⟨hended.inv, hended.ready, hdigested.port.trans hport⟩,
    fun _ => ?_⟩, hlast, ?_⟩
  · rw [hdigested.bytes, hdin, hstream, hsettled]
  · rw [List.length_take_of_le htaken]; exact hbudget
  · rcases hended.ending with ⟨-, hlife, -⟩ | ⟨rfl, hlife, -⟩
    · have hresponse := hdigested.response hlife
      rw [Nat.zero_add] at hresponse
      exact .inl ⟨Option.some.inj (hlast.symm.trans hresponse), hlife⟩
    · exact .inr ⟨nofun, by rw [hlife]; exact nofun⟩

end

/-- FEED ends after at most `|d|` PUSHes, each of which takes a byte, and consumes its bytes (30_encoding.md R83). -/
theorem feedLoop_consumes {fuel : Nat} {d : List Byte} {codes : List (BitVec 2)} {s : State} (hfuel : d.length < fuel)
    (h : AtRest s) (hactive : s.life = .active) (hcodes : s.occ + d.length ≤ codes.length) :
    ∃ t rest, feedLoop fuel d codes s = some (t, rest) ∧ Consumed d codes s t rest := by
  induction fuel generalizing d codes s with
  | zero => exact absurd hfuel (Nat.not_lt_zero _)
  | succ fuel ih =>
    by_cases hd : d = []
    · subst hd
      exact ⟨s, codes, if_pos rfl, .nil h codes⟩
    · have hlen : (d.take 65535).length = min 65535 d.length := List.length_take
      obtain ⟨m, t, rest, r, hrun, hlow, hm, hconsumed, hlast, hend⟩ := transact_push_consumes h hactive (d := d.take 65535)
        (by omega) (by simpa using hd) (codes := codes) (by omega)
      rw [List.take_take, Nat.min_eq_left (by omega)] at hconsumed
      have hloop : feedLoop (fuel + 1) d codes s =
          if r.status = .ok then feedLoop fuel (d.drop r.data.toNat) rest t else some (t, rest) := by
        simp only [feedLoop, if_neg hd, hrun, hlast]
      rw [hloop]
      rcases hend with ⟨rfl, hlife⟩ | ⟨hstatus, hlife⟩
      · have hdata : (BitVec.ofNat 32 m).toNat = m := by rw [BitVec.toNat_ofNat]; omega
        have hbudget := hconsumed.budget hlife
        rw [List.length_take_of_le (by omega)] at hbudget
        obtain ⟨u, rest', hfeed, hrest⟩ := ih (d := d.drop m) (codes := rest) (by rw [List.length_drop]; omega)
          (hconsumed.atRest hlife) hlife (by rw [List.length_drop]; omega)
        refine ⟨u, rest', by rw [if_pos rfl, hdata]; exact hfeed, ?_⟩
        have := hconsumed.append hrest hlife
        rwa [List.take_append_drop] at this
      · refine ⟨t, rest, if_neg hstatus, ?_⟩
        have := hconsumed.append_of_inactive hlife (d.drop m)
        rwa [List.take_append_drop] at this

/-- A chunked stream is consumed as its bytes in order, until the block is no longer Active (70_reset_and_hazards.md R207). -/
theorem feedChunks_consumes {cs : List (List Byte)} {codes : List (BitVec 2)} {s : State} (h : AtRest s)
    (hactive : s.life = .active) (hcodes : s.occ + cs.flatten.length ≤ codes.length) :
    ∃ t rest, feedChunks cs codes s = some (t, rest) ∧ Consumed cs.flatten codes s t rest := by
  induction cs generalizing codes s with
  | nil => exact ⟨s, codes, rfl, .nil h codes⟩
  | cons d ds ih =>
    rw [List.flatten_cons, List.length_append] at hcodes
    obtain ⟨t, rest, hfeed, hconsumed⟩ := feedLoop_consumes (Nat.lt_succ_self d.length) h hactive (codes := codes) (by omega)
    have hchunks : feedChunks (d :: ds) codes s = if t.life = .active then feedChunks ds rest t else some (t, rest) := by
      simp only [feedChunks, feed, hfeed]
    rw [hchunks, List.flatten_cons]
    by_cases hlife : t.life = .active
    · have hbudget := hconsumed.budget hlife
      obtain ⟨u, rest', hrun, hrest⟩ := ih (hconsumed.atRest hlife) hlife (codes := rest) (by omega)
      exact ⟨u, rest', (if_pos hlife).trans hrun, hconsumed.append hrest hlife⟩
    · exact ⟨t, rest, if_neg hlife, hconsumed.append_of_inactive hlife _⟩

/-- Settles O41: either chunking consumes the bytes of the one stream in order. -/
theorem chunkSizeIndependence : Obligations.ChunkSizeIndependence := by
  unfold Obligations.ChunkSizeIndependence
  intro s cs ds codes hinv hready hactive hport hsame hcodes
  have h : AtRest s := ⟨hinv, hready, hport⟩
  obtain ⟨t, restT, hrunT, hT⟩ := feedChunks_consumes h hactive hcodes
  obtain ⟨u, restU, hrunU, hU⟩ := feedChunks_consumes h hactive (hsame ▸ hcodes)
  have hstream : stream t = stream u := congrArg Prod.fst ((hT.bytes.trans (hsame ▸ rfl)).trans hU.bytes.symm)
  have hfield : ∀ {α : Type} (f : State → α), f (stream t) = f (stream u) := fun f => congrArg f hstream
  exact ⟨t, u, restT, restU, hrunT, hrunU, hfield State.requests, hfield State.eventPort, hfield State.occ, hfield State.buf,
    hfield State.life, hfield State.frames, hfield State.events⟩

end Sys2Proof.Machine
end

section
/-! PROOFS. A raise by itself (60_exceptions.md R182): the bit of the event's code joins EVENTS, and no other does. -/

namespace Sys2Proof.Machine

/-- The event's mask is the one bit its code names (60_exceptions.md R180). -/
theorem eventBit_getLsbD (e : Event) (i : Nat) : (eventBit e).getLsbD i = decide (i = (eventCode e).toNat) := by
  have hcode : (eventCode e).toNat < 8 := (eventCode e).isLt
  have hone : eventBit e = BitVec.twoPow 8 (eventCode e).toNat := rfl
  rw [hone, BitVec.getLsbD_twoPow, decide_eq_true hcode, Bool.true_and]
  exact decide_eq_decide.mpr eq_comm

/-- Settles O14: the new EVENTS is the old one joined with the event's mask. -/
theorem raiseSetsBitAndEmitsRecord : Obligations.RaiseSetsBitAndEmitsRecord := by
  unfold Obligations.RaiseSetsBitAndEmitsRecord
  intro e info s
  refine ⟨s.events ||| eventBit e, rfl, fun i _ => ?_⟩
  rw [BitVec.getLsbD_or, eventBit_getLsbD]
  cases e <;> rfl

end Sys2Proof.Machine
end

section
/-! PROOFS. The hardware reset of a waiting block (70_reset_and_hazards.md R200), and the answer that comes after it. -/

namespace Sys2Proof.Machine

/-- Hardware reset is taken wherever the block waits, a pending dispatch included: `seq`, `push` and `decReq` are not asked. -/
theorem step_hardwareReset {s : State} (hlegal : configLegal s.cfg = true) (hwaits : nextCommand s = none) {rest : List Input}
    (hinput : s.inputs = .hardwareReset :: rest) : step s = .next (hardReset { s with inputs := rest }) :=
  step_receives hlegal hwaits hinput

/-- The decoder's answer to a request withdrawn by hardware reset is taken off the environment's list and does nothing else. -/
theorem step_lateDecoderResponse {s : State} (hlegal : configLegal s.cfg = true) (hwaits : nextCommand s = none)
    {code : BitVec 2} {rest : List Input} (hinput : s.inputs = .lateDecoderResponse code :: rest) :
    step s = .next { s with inputs := rest } :=
  step_receives hlegal hwaits hinput

/-- Settles O42: the step that takes the reset ends in `hardReset`, whose fields are the values of 10_state.md R41, and the step
that takes a late answer ends where it began. -/
theorem hardwareResetResult : Obligations.HardwareResetResult := by
  unfold Obligations.HardwareResetResult
  constructor
  · intro s rest hlegal hwaits hinput
    have hstep := step_hardwareReset hlegal hwaits hinput
    exact ⟨_, hstep, rfl, rfl, rfl, rfl, rfl, rfl, rfl, rfl, rfl, rfl, rfl, rfl, rfl, rfl, rfl⟩
  · intro s code rest hlegal hwaits hinput
    exact step_lateDecoderResponse hlegal hwaits hinput

end Sys2Proof.Machine
end
